-- ==== Sys2Proof/Word.lean ====
section
/-! DEFINITION. The bit-vector types of the block.

The spec's values are exact natural numbers that are given a width only when they are written to a register or carried
by a port (R17). The storage width `W` is a parameter of the block, `1 <= W <= 128` (R7), so a `W`-bit word is carried
in the widest lane the spec admits, 128 bits, and every register write keeps its low `W` bits (Machine/Ops.lean). -/

namespace Sys2Proof

/-- The widest storage width the spec admits (R7, R15). -/
abbrev maxW : Nat := 128

/-- A word of the command data port, the response data port or `STORAGE`: the lane of the widest admitted block, whose
low `W` bits are the word (R7, R80). -/
abbrev Word := BitVec 128

/-- An 8-bit command field or register (R15, R81). -/
abbrev Byte := BitVec 8

/-- The 32-bit command header `HDR` (R81). -/
abbrev Header := BitVec 32

end Sys2Proof
end

