-- ==== Sys2Proof/Config.lean ====
section
/-! DEFINITION. The configuration record `Cfg` of the spec (00_scope.md R7 to R14): what is fixed when the block is
built. No command reads it out or writes it (R38). -/

namespace Sys2Proof

/-- `CAP_MODE`: what NEW records as the capacity (R8, R121). -/
inductive CapMode where
  | widen      -- `W`, whatever was requested
  | preserve   -- the requested value
  deriving DecidableEq, Repr

/-- `DTL_UNIT`: the unit in which INSERT's source-type size is compared with the capacity (R12, R142). -/
inductive DtlUnit where
  | bytes
  | bits
  deriving DecidableEq, Repr

/-- One entry of the type-acceptance table `ACCEPT` as plain data (R13, R173): the set of raw field values a target
type accepts. Every predicate on `W`-bit values is one of these, since `oneOf` may list any set of words. -/
inductive AcceptRow where
  | below (bits : Nat)              -- an unsigned integer type of that many bits: accepts `v < 2^bits`
  | oneOf (values : List Word)      -- an enumerated type: accepts exactly its discriminants
  deriving DecidableEq, Repr

/-- `Cfg` (R7 to R14). -/
structure Config where
  W             : Nat                   -- R7, storage width
  capMode       : CapMode               -- R8
  strictOverlap : Bool                  -- R9
  insertClear   : Bool                  -- R10
  valueCheck    : Bool                  -- R11
  dtlUnit       : DtlUnit               -- R12
  accept        : Vector AcceptRow 16   -- R13, indexed by `TSEL`
  latency       : Nat                   -- R14, clock cycles
  deriving DecidableEq, Repr

/-- The configurations a block may be built with: `1 <= W <= 128` (R7) and `LATENCY >= 1` (R14). -/
abbrev Config.Admitted (c : Config) : Prop := 1 ≤ c.W ∧ c.W ≤ maxW ∧ 1 ≤ c.latency

end Sys2Proof
end

