-- ==== Sys2Proof/Syntax.lean ====
section
/-! DEFINITION. The seven commands (30_encoding.md R83), one constructor per row of the opcode table, each with exactly
the operands its row uses. -/

namespace Sys2Proof

/-- A command. `fromRaw` is FROM (its own name is a word of Lean). Header fields a command does not use are no part of
it (R85). -/
inductive Instr where
  | new (nbits : Byte)                              -- NEW, R120
  | fromRaw (raw : Word)                            -- FROM, R122
  | add (pos wid : Byte)                            -- ADD, R144
  | insert (pos wid dsize : Byte) (data : Word)     -- INSERT, R145
  | get (pos : Byte)                                -- GET, R171
  | getAs (pos : Byte) (tsel : BitVec 4)            -- GET_AS, R172
  | getRaw                                          -- GET_RAW, R174
  deriving DecidableEq, Repr

end Sys2Proof
end

