-- ==== Sys2Proof/WellFormed.lean ====
section
/-! DEFINITION. Which command terms a block of storage width `W` can be given. -/

namespace Sys2Proof

/-- `CDATA` is a `W`-bit word (R80, R81), so the data operand of FROM and INSERT is below `2^W`. Every value of an
8-bit or 4-bit header field is a well-formed operand: "the bounds check, not the decoder, rejects them" (R82). -/
def Instr.wellFormed (W : Nat) : Instr → Bool
  | .new _            => true
  | .fromRaw raw      => decide (raw.toNat < 2 ^ W)
  | .add _ _          => true
  | .insert _ _ _ dat => decide (dat.toNat < 2 ^ W)
  | .get _            => true
  | .getAs _ _        => true
  | .getRaw           => true

end Sys2Proof
end

