-- ==== Sys2Proof/Decode.lean ====
section
/-! DEFINITION. The command decoder and encoder (30_encoding.md R81 to R85, R89). -/

namespace Sys2Proof

/-! ## Header fields (R81, R82): unsigned, unscaled -/

/-- `OP = HDR[3:0]`. -/
def fieldOP (h : Header) : BitVec 4 := h.extractLsb' 0 4

/-- `TSEL = HDR[7:4]`. -/
def fieldTSEL (h : Header) : BitVec 4 := h.extractLsb' 4 4

/-- `POS = HDR[15:8]`. -/
def fieldPOS (h : Header) : Byte := h.extractLsb' 8 8

/-- `WID = HDR[23:16]`, which NEW names `NBITS`. -/
def fieldWID (h : Header) : Byte := h.extractLsb' 16 8

/-- `DSIZE = HDR[31:24]`. -/
def fieldDSIZE (h : Header) : Byte := h.extractLsb' 24 8

/-! ## Decoding -/

/-- Why a header is no command: its opcode is reserved, `0x7` to `0xF` (R84). -/
inductive DecodeError where
  | reservedOpcode (op : BitVec 4)
  deriving DecidableEq, Repr

/-- What the decoder answers. -/
inductive Decoded where
  | command (i : Instr)
  | reject (e : DecodeError)
  deriving DecidableEq, Repr

/-- The opcode map (R83). It looks at `OP` only; the fields a command does not use are ignored (R85). -/
def decode (hdr : Header) (cdata : Word) : Decoded :=
  match (fieldOP hdr).toNat with
  | 0 => .command (.new (fieldWID hdr))
  | 1 => .command (.fromRaw cdata)
  | 2 => .command (.add (fieldPOS hdr) (fieldWID hdr))
  | 3 => .command (.insert (fieldPOS hdr) (fieldWID hdr) (fieldDSIZE hdr) cdata)
  | 4 => .command (.get (fieldPOS hdr))
  | 5 => .command (.getAs (fieldPOS hdr) (fieldTSEL hdr))
  | 6 => .command .getRaw
  | _ => .reject (.reservedOpcode (fieldOP hdr))

/-- The command a decoder's answer holds, if it holds one. -/
def Decoded.toOption : Decoded → Option Instr
  | .command i => some i
  | .reject _  => none

/-- The decoder on a command laid out as one number: `HDR` in bits 31..0, `CDATA` in the bits above. Bits at or above
`nbits` are 0. -/
def decodeTableWord (nbits w : Nat) : Option Instr :=
  (decode (BitVec.ofNat 32 (w % 2 ^ nbits)) (BitVec.ofNat 128 ((w % 2 ^ nbits) / 2 ^ 32))).toOption

/-! ## Encoding -/

/-- A header from its five fields: `HDR = (DSIZE << 24) | (WID << 16) | (POS << 8) | (TSEL << 4) | OP` (R89). -/
def packHeader (op tsel : BitVec 4) (pos wid dsize : Byte) : Header :=
  (dsize.setWidth 32 <<< 24) ||| (wid.setWidth 32 <<< 16) ||| (pos.setWidth 32 <<< 8) |||
    (tsel.setWidth 32 <<< 4) ||| op.setWidth 32

/-- The opcode of a command (R83). -/
def opcode : Instr → BitVec 4
  | .new _          => 0x0
  | .fromRaw _      => 0x1
  | .add _ _        => 0x2
  | .insert _ _ _ _ => 0x3
  | .get _          => 0x4
  | .getAs _ _      => 0x5
  | .getRaw         => 0x6

/-- The pair (`HDR`, `CDATA`) of a command; fields it does not use are 0 (R89). -/
def encode : Instr → Header × Word
  | .new nbits               => (packHeader 0x0 0 0 nbits 0, 0)
  | .fromRaw raw             => (packHeader 0x1 0 0 0 0, raw)
  | .add pos wid             => (packHeader 0x2 0 pos wid 0, 0)
  | .insert pos wid dsize dat => (packHeader 0x3 0 pos wid dsize, dat)
  | .get pos                 => (packHeader 0x4 0 pos 0 0, 0)
  | .getAs pos tsel          => (packHeader 0x5 tsel pos 0 0, 0)
  | .getRaw                  => (packHeader 0x6 0 0 0 0, 0)

/-- The header bits a command with opcode `op` uses: `OP` and the "operands used" column of R83. A reserved opcode
uses `OP` only (R84). -/
def usedBits (op : BitVec 4) : Header :=
  match op.toNat with
  | 0 => 0x00FF000F
  | 2 => 0x00FFFF0F
  | 3 => 0xFFFFFF0F
  | 4 => 0x0000FF0F
  | 5 => 0x0000FFFF
  | _ => 0x0000000F

/-- Whether a command with opcode `op` uses `CDATA`: only FROM and INSERT do (R85). -/
def usesData (op : BitVec 4) : Bool :=
  op == 0x1 || op == 0x3

end Sys2Proof
end

