-- ==== Sys2Proof/Machine/Compat.lean ====
section
/-! DEFINITION. The reference configuration `COMPAT` (00_scope.md R7 to R14, 92_eei_decisions.md D5 to D15). -/

namespace Sys2Proof

/-- The type-acceptance table of `COMPAT` (R173): rows 0 to 4 are the unsigned integers of 8, 16, 32, 64 and 128 bits,
rows 5 to 15 accept nothing until the builder configures them. -/
def Config.compatAccept : Vector AcceptRow 16 :=
  #v[.below 8, .below 16, .below 32, .below 64, .below 128,
     .oneOf [], .oneOf [], .oneOf [], .oneOf [], .oneOf [], .oneOf [],
     .oneOf [], .oneOf [], .oneOf [], .oneOf [], .oneOf []]

/-- `COMPAT`: the default of each parameter. The spec gives `LATENCY` no default; 1, the least it admits, is the
model's (DESIGN CHOICE, log entry 3: unsafe for a claim about this one number). -/
def Config.compat : Config where
  W             := 32
  capMode       := .widen
  strictOverlap := false
  insertClear   := false
  valueCheck    := false
  dtlUnit       := .bytes
  accept        := Config.compatAccept
  latency       := 1

end Sys2Proof
end

