-- ==== Sys2Proof/Machine/State.lean ====
section
/-! DEFINITION. The state of the block (10_state.md), with its ports (30_encoding.md R80), as plain data. -/

namespace Sys2Proof.Machine

/-- The response statuses (R87). Code 7 is reserved and never produced, so it has no constructor. -/
inductive Status where
  | ok              -- 0
  | outOfBounds     -- 1
  | wouldOverlap    -- 2
  | dataTooLarge    -- 3
  | tryFromError    -- 4
  | absent          -- 5
  | illegalCommand  -- 6
  deriving DecidableEq, Repr

/-- A response: the pair (`RSP_STATUS`, `RSP_DATA`) (R86). -/
structure Response where
  status : Status
  data   : Word
  deriving DecidableEq, Repr

/-- One slot of the field table: a valid bit and an 8-bit width (R33). -/
structure Entry where
  v : Bool
  w : Byte
  deriving DecidableEq, Repr

/-- An invalid slot as reset, NEW and FROM leave it (R33, R34). -/
def Entry.empty : Entry := ⟨false, 0⟩

/-- Where the block is between two clock edges (R80): ready for a command; a command accepted whose response appears
`left` edges from now; or a response presented on the response port. -/
inductive Phase where
  | idle
  | computing (left : Nat)
  | responding
  deriving DecidableEq, Repr

/-- The input pins as sampled at one rising edge of `clk` (R80). Of `cmdData` the block sees the low `W` bits. -/
structure PortInput where
  rst      : Bool
  cmdValid : Bool
  cmdHdr   : Header
  cmdData  : Word
  rspReady : Bool
  deriving DecidableEq, Repr

/-- The block, with what its environment drives. `storage`, `numbits` and `entry` are the spec's architectural state
(R30); `rspStatus` and `rspData` its response holding registers (R42); `phase` gives `cmd_ready` and `rsp_valid`
(R80). `cfg` is the build-time configuration, which no step changes (R38; log entry 1). `inputs` is the environment:
the levels the requester drives at the coming edges, the next edge first (log entry 2). -/
structure State where
  cfg       : Config
  storage   : Word
  numbits   : Byte
  entry     : List Entry
  rspStatus : Status
  rspData   : Word
  phase     : Phase
  inputs    : List PortInput
  deriving DecidableEq, Repr

/-- Why a step stops with a fault. The spec gives the block no fault: every error is a response status (R209). -/
inductive Fault where
  /-- Raised by `step` on a state whose configuration is outside what the spec admits (R7, R14): there is no such
  block. Safe: the model claims nothing of a block that cannot be built. -/
  | configNotAdmitted
  deriving DecidableEq, Repr

/-- Why a step refuses. No meaning refuses. -/
inductive Refusal where
  /-- Raised by an arm of `exec` that has no meaning yet; no arm does. Safe. -/
  | notModelled (mnemonic : String)
  deriving DecidableEq, Repr

/-- What a meaning or a step answers. -/
abbrev Result := Host.Outcome State Fault Refusal

/-- The block of configuration `c` right after a reset edge (R230), its environment still to drive `ins`. -/
def State.resetOf (c : Config) (ins : List PortInput) : State where
  cfg       := c
  storage   := 0
  numbits   := BitVec.ofNat 8 c.W
  entry     := List.replicate (c.W + 1) Entry.empty
  rspStatus := .ok
  rspData   := 0
  phase     := .idle
  inputs    := ins

/-- The reference block `COMPAT` right after reset, with nothing driven on its ports yet (R230, R233). -/
def State.reset : State := State.resetOf Config.compat []

end Sys2Proof.Machine
end

