-- ==== Sys2Proof/Machine/Ops.lean ====
section
/-! DEFINITION. The named operations over the registers: truncation and the field mask (R17, R19), reads and writes of
`STORAGE`, `NUMBITS` and `ENTRY` (R20, R31 to R34), the slice extractor (R170), and the two command ends `respond` and
`raise` (R21). The block takes no traps (R209): `raise` is the one shared operation by which a command reports an
error, and there is no return from it to model (R210). -/

namespace Sys2Proof.Machine

/-- `trunc_W(v) = v mod 2^W`, in the 128-bit lane (R17). -/
def trunc (W v : Nat) : Word := BitVec.ofNat 128 (v % 2 ^ W)

/-- `Mask(pos, width) = trunc_W((2^width - 1) << pos)`, exact before truncation (R19). -/
def mask (W pos width : Nat) : Word := trunc W ((2 ^ width - 1) <<< pos)

/-- `~a` at width `W`: `(2^W - 1) - a` (R18). -/
def notW (W : Nat) (a : Word) : Word := trunc W (2 ^ W - 1 - a.toNat)

/-! ## The field table -/

/-- `ENTRY[p]`; a position with no slot (`p > W`) reads as an invalid one, which R171 and R172 treat alike. -/
def State.entryAt (s : State) (p : Nat) : Entry := s.entry.getD p Entry.empty

/-- Whether a field is registered at `p`: not `(pos > W or ENTRY[pos].v == 0)` (R171, R172). -/
def State.registered (s : State) (p : Nat) : Bool := decide (p ≤ s.cfg.W) && (s.entryAt p).v

/-! ## Register writes: each keeps the register's width (R17) -/

/-- `STORAGE <- v` (R31). -/
def State.writeStorage (s : State) (v : Nat) : State := { s with storage := trunc s.cfg.W v }

/-- `NUMBITS <- n`, an 8-bit register (R32). -/
def State.writeNumbits (s : State) (n : Nat) : State := { s with numbits := BitVec.ofNat 8 n }

/-- `ENTRY[p].v <- 0; ENTRY[p].w <- 0` for `p` in `0..W` (R120, R122). -/
def State.clearEntries (s : State) : State := { s with entry := List.replicate (s.cfg.W + 1) Entry.empty }

/-- `ENTRY[p].v <- 1; ENTRY[p].w <- w` (R144, R145). -/
def State.writeEntry (s : State) (p w : Nat) : State :=
  { s with entry := s.entry.set p ⟨true, BitVec.ofNat 8 w⟩ }

/-- `RSP_STATUS <- st; RSP_DATA <- d` (R42, R86). -/
def State.writeResponse (s : State) (st : Status) (d : Word) : State :=
  { s with rspStatus := st, rspData := trunc s.cfg.W d.toNat }

/-! ## Command ends (R21) -/

/-- `respond(st, d)`: the command ends with status `st` and data `d`, its writes committed. -/
def respond (st : Status) (d : Word) (s : State) : Result := .next (s.writeResponse st d)

/-- `raise E()`: the command ends with status `E`, data 0 and no state written (R21, R207). -/
def raise (e : Status) (s : State) : Result := respond e 0 s

/-- The answer to a reserved opcode: `ILLEGAL_COMMAND`, no state change, data 0 (R84, R206). -/
def illegalCommand (s : State) : Result := raise .illegalCommand s

/-- The 3-bit status codes (R87). -/
def Status.code : Status → BitVec 3
  | .ok             => 0
  | .outOfBounds    => 1
  | .wouldOverlap   => 2
  | .dataTooLarge   => 3
  | .tryFromError   => 4
  | .absent         => 5
  | .illegalCommand => 6

/-! ## The slice extractor -/

/-- `Extract(p) = (STORAGE & Mask(p, ENTRY[p].w)) >> p` (R170). -/
def State.extract (s : State) (p : Nat) : Word :=
  (s.storage &&& mask s.cfg.W p (s.entryAt p).w.toNat) >>> p

end Sys2Proof.Machine
end

