-- ==== Sys2Proof/Machine/Operands.lean ====
section
/-! DEFINITION. Operand assembly (30_encoding.md R82) and the type-acceptance table (42_field_read.md R173). There are no
operand modes: a header field is its unsigned value, and `CDATA` is the `W`-bit word whole. -/

namespace Sys2Proof.Machine

/-- `zext_8` of a header byte as an exact integer: `pos`, `width`, `num_bits`, `dsize` (R82). -/
def byteOperand (b : Byte) : Nat := b.toNat

/-- `CDATA`, the `W` bits the data port carries (R80, R82). -/
def dataOperand (s : State) (d : Word) : Word := trunc s.cfg.W d.toNat

/-- Whether a row of the acceptance table accepts the raw value `v` (R173). -/
def acceptsValue (r : AcceptRow) (v : Word) : Bool :=
  match r with
  | .below bits   => decide (v.toNat < 2 ^ bits)
  | .oneOf values => values.contains v

/-- `Cfg.ACCEPT[t](v)` (R13, R172). -/
def typeAccepts (c : Config) (t : BitVec 4) (v : Word) : Bool :=
  acceptsValue (c.accept.get t.toFin) v

end Sys2Proof.Machine
end

