-- ==== Sys2Proof/Machine/Flags.lean ====
section
/-! DEFINITION. The validator's verdicts (41_field_write.md R140 to R143). The block has no flags that persist between
commands (R41): these are combinational, and each reads the state before the command. Every sum and comparison is of
exact integers (R17). -/

namespace Sys2Proof.Machine

/-- `OOB(pos, width) = (pos > NUMBITS) or (pos + width > NUMBITS)` (R140). -/
def State.oob (s : State) (pos width : Nat) : Bool :=
  decide (pos > s.numbits.toNat) || decide (pos + width > s.numbits.toNat)

/-- Whether the candidate `(pos, width)` shares a bit with the valid slot `p`, `p != pos` (R141, strict clause). -/
def State.intersects (s : State) (pos width p : Nat) : Bool :=
  let q := s.entryAt p
  decide (p ≠ pos) && q.v && decide (width > 0) && decide (q.w.toNat > 0) &&
    decide (pos < p + q.w.toNat) && decide (p < pos + width)

/-- `OVL(pos, width)`: same start position, or under `STRICT_OVERLAP` a shared bit with a slot in `0..W` (R141). -/
def State.ovl (s : State) (pos width : Nat) : Bool :=
  (s.entryAt pos).v ||
    (s.cfg.strictOverlap && (List.range (s.cfg.W + 1)).any fun p => s.intersects pos width p)

/-- `DTL(dsize)`: the source type's size exceeds the capacity, in the configured unit (R142). -/
def State.dtl (s : State) (dsize : Nat) : Bool :=
  match s.cfg.dtlUnit with
  | .bytes => decide (dsize > s.numbits.toNat)
  | .bits  => decide (8 * dsize > s.numbits.toNat)

/-- `VAL(data, width)`: under `VALUE_CHECK`, the data does not fit in `width` bits (R143). -/
def State.val (s : State) (data : Word) (width : Nat) : Bool :=
  s.cfg.valueCheck && decide (data.toNat ≥ 2 ^ width)

end Sys2Proof.Machine
end

