-- ==== Sys2Proof/Machine/Construction.lean ====
section
/-! DEFINITION. The construction commands NEW and FROM (40_construction.md). -/

namespace Sys2Proof.Machine

/-- NEW (R120, R121): an empty set of validated capacity; a failing NEW keeps the previous set. -/
def execNew (nbits : Byte) (s : State) : Result :=
  let n := byteOperand nbits
  if n > s.cfg.W then raise .outOfBounds s
  else
    let capacity := match s.cfg.capMode with
      | .widen    => s.cfg.W
      | .preserve => n
    respond .ok 0 (((s.writeStorage 0).writeNumbits capacity).clearEntries)

/-- FROM (R122): a set primed with a raw word, of capacity `W` in every mode. -/
def execFrom (raw : Word) (s : State) : Result :=
  respond .ok 0 (((s.writeStorage (dataOperand s raw).toNat).writeNumbits s.cfg.W).clearEntries)

end Sys2Proof.Machine
end

