-- ==== Sys2Proof/Machine/FieldRead.lean ====
section
/-! DEFINITION. The field read commands GET, GET_AS and GET_RAW (42_field_read.md). None writes architectural state
(R67). -/

namespace Sys2Proof.Machine

/-- GET (R171): the raw value of the field registered at `pos`; `ABSENT` where there is none. -/
def execGet (pos : Byte) (s : State) : Result :=
  let p := byteOperand pos
  if s.registered p then respond .ok (s.extract p) s
  else respond .absent 0 s

/-- GET_AS (R172): the raw value, if the target type `TSEL` selects accepts it. -/
def execGetAs (pos : Byte) (tsel : BitVec 4) (s : State) : Result :=
  let p := byteOperand pos
  if s.registered p then
    if typeAccepts s.cfg tsel (s.extract p) then respond .ok (s.extract p) s
    else raise .tryFromError s
  else raise .tryFromError s

/-- GET_RAW (R174): the whole packed word, verbatim. -/
def execGetRaw (s : State) : Result := respond .ok s.storage s

end Sys2Proof.Machine
end

