-- ==== Sys2Proof/Machine/FieldWrite.lean ====
section
/-! DEFINITION. The field write commands ADD and INSERT (41_field_write.md). -/

namespace Sys2Proof.Machine

/-- ADD (R144): register a field without writing any bit of `STORAGE`; bounds before overlap (R208). -/
def execAdd (pos wid : Byte) (s : State) : Result :=
  let p := byteOperand pos
  let width := byteOperand wid
  if s.oob p width then raise .outOfBounds s
  else if s.ovl p width then raise .wouldOverlap s
  else respond .ok 0 (s.writeEntry p width)

/-- The word INSERT stores: `base | trunc_W(data << pos)`, where `base` is `STORAGE`, with the field's bits cleared
first under `INSERT_CLEAR` (R145, R147). -/
def State.insertedWord (s : State) (pos width : Nat) (data : Word) : Word :=
  let base := if s.cfg.insertClear then s.storage &&& notW s.cfg.W (mask s.cfg.W pos width) else s.storage
  base ||| trunc s.cfg.W (data.toNat <<< pos)

/-- INSERT (R145): write a value and register the field in one step; bounds, then type size, then value range (R208).
It makes no overlap check (R146), and answers the converted, unmasked data. -/
def execInsert (pos wid dsize : Byte) (dat : Word) (s : State) : Result :=
  let p := byteOperand pos
  let width := byteOperand wid
  let data := dataOperand s dat
  if s.oob p width then raise .outOfBounds s
  else if s.dtl (byteOperand dsize) then raise .dataTooLarge s
  else if s.val data width then raise .dataTooLarge s
  else respond .ok data ((s.writeStorage (s.insertedWord p width data).toNat).writeEntry p width)

end Sys2Proof.Machine
end

