-- ==== Sys2Proof/Machine/Dispatch.lean ====
section
/-! DEFINITION. One arm per command (30_encoding.md R83). -/

namespace Sys2Proof.Machine

def exec (i : Instr) (s : State) : Host.Outcome State Fault Refusal :=
  match i with
  -- construction
  | .new nbits => Sys2Proof.Machine.execNew nbits s
  | .fromRaw raw => Sys2Proof.Machine.execFrom raw s
  -- field writes
  | .add pos wid => Sys2Proof.Machine.execAdd pos wid s
  | .insert pos wid dsize dat => Sys2Proof.Machine.execInsert pos wid dsize dat s
  -- field reads
  | .get pos => Sys2Proof.Machine.execGet pos s
  | .getAs pos tsel => Sys2Proof.Machine.execGetAs pos tsel s
  | .getRaw => Sys2Proof.Machine.execGetRaw s

end Sys2Proof.Machine
end

