-- ==== Sys2Proof/Machine/Port.lean ====
section
/-! DEFINITION. The ports and the handshake, one rising edge of `clk` at a time (30_encoding.md R80, 70_reset_and_hazards.md
R230, R231, R235 to R237). -/

namespace Sys2Proof.Machine

/-- Pins with nothing asserted: no reset, no command, response not taken. -/
def PortInput.quiet : PortInput := ⟨false, false, 0, 0, false⟩

/-- The levels on the input pins at the next edge. Where the environment lists none, nothing is asserted (log entry 2). -/
def State.pins (s : State) : PortInput := s.inputs.headD PortInput.quiet

/-- Whether the block has no command in flight. -/
def Phase.isIdle : Phase → Bool
  | .idle => true
  | .computing _ => false
  | .responding => false

/-- Whether the response has appeared and not yet transferred. -/
def Phase.isResponding : Phase → Bool
  | .idle => false
  | .computing _ => false
  | .responding => true

/-- `cmd_ready`: 0 while `rst = 1`, and 0 from the acceptance of a command until its response has transferred
(R80, R230). -/
def State.cmdReady (s : State) : Bool := !s.pins.rst && s.phase.isIdle

/-- `rsp_valid`: a response is presented; with `rst = 1` it is not delivered (R80, R231; log entry 5). -/
def State.rspValid (s : State) : Bool := !s.pins.rst && s.phase.isResponding

/-- The response port: what `rsp_status` and `rsp_data` show while `rsp_valid = 1` (R42, R86). -/
def State.rspPort (s : State) : Option Response :=
  if s.rspValid then some ⟨s.rspStatus, s.rspData⟩ else none

/-- The command the next edge accepts, if it accepts one: `cmd_valid = 1` and `cmd_ready = 1`, taken as it stands at
that edge (R80, R235). -/
def State.fetch (s : State) : Option (Header × Word) :=
  if s.cmdReady && s.pins.cmdValid then some (s.pins.cmdHdr, trunc s.cfg.W s.pins.cmdData.toNat) else none

/-- The response the next edge transfers, if it transfers one: `rsp_valid = 1` and `rsp_ready = 1` (R80). -/
def State.transfer (s : State) : Option Response :=
  if s.pins.rspReady then s.rspPort else none

/-- The phase right after an acceptance: the response appears `LATENCY` cycles later (R80, R236; log entry 4). -/
def Phase.afterAccept (latency : Nat) : Phase :=
  if latency ≤ 1 then .responding else .computing (latency - 1)

/-- The phase after an edge that neither resets nor accepts. -/
def Phase.afterEdge (rspReady : Bool) : Phase → Phase
  | .idle => .idle
  | .computing left => if left ≤ 1 then .responding else .computing (left - 1)
  | .responding => if rspReady then .idle else .responding

/-- What an accepting edge does to the ports; the command itself is performed on the state this gives. -/
def State.acceptEdge (s : State) : State :=
  { s with phase := Phase.afterAccept s.cfg.latency, inputs := s.inputs.tail }

/-- An edge that accepts no command: a reset (R231), which overwrites everything but the configuration, or a step of
the handshake, which touches no register. -/
def State.otherEdge (s : State) : State :=
  if s.pins.rst then State.resetOf s.cfg s.inputs.tail
  else { s with phase := s.phase.afterEdge s.pins.rspReady, inputs := s.inputs.tail }

end Sys2Proof.Machine
end

