-- ==== Sys2Proof/Machine/Command.lean ====
section
/-! DEFINITION. One command performed on the registers: the abstract step `Command -> State -> State x Response` of R80,
whose response is the pair of response registers it leaves. -/

namespace Sys2Proof.Machine

/-- Perform the command (`hdr`, `cdata`): the meaning of what it decodes to, or the answer to a reserved opcode, which
is given "before anything else" (R84, R206, R208). -/
def perform (hdr : Header) (cdata : Word) (s : State) : Result :=
  match decode hdr cdata with
  | .command i => exec i s
  | .reject _  => illegalCommand s

end Sys2Proof.Machine
end

