-- ==== Sys2Proof/Machine/Step.lean ====
section
/-! DEFINITION. One step of the machine: one rising edge of `clk` (30_encoding.md R80). -/

namespace Sys2Proof.Machine

/-- At each edge the block accepts the command on its port and performs it, or takes the edge without one (R80). -/
def step (s : State) : Host.Outcome State Fault Refusal :=
  if s.cfg.Admitted then
    match s.fetch with
    | some (hdr, cdata) => perform hdr cdata s.acceptEdge
    | none              => .next s.otherEdge
  else .fault .configNotAdmitted

/-- `s` with the command whose bits are `w` (`HDR` in bits 31..0, `CDATA` above) on its command port at the next edge,
the block ready for it (log entry 2). -/
def State.withFetchWord (s : State) (nbits w : Nat) : State :=
  { s with
    phase := .idle
    inputs := { rst := false, cmdValid := true, cmdHdr := BitVec.ofNat 32 (w % 2 ^ nbits),
                cmdData := BitVec.ofNat 128 ((w % 2 ^ nbits) / 2 ^ 32), rspReady := false } :: s.inputs }

end Sys2Proof.Machine
end

