-- ==== Sys2Proof/Machine/Assembler.lean ====
section
/-! DEFINITION. The assembly syntax (30_encoding.md R89): one command per line, the mnemonic in lower case followed by
its operands separated by commas, a comment from `;` to the end of the line, and the directive `.cmd`. A line is a list
of characters. What the syntax does not cover, an operand its field cannot hold included, is no line (log entry 7). -/

namespace Sys2Proof.Machine

/-- Blank characters between the parts of a line. -/
def isBlank (c : Char) : Bool := c == ' ' || c == '\t'

/-- A text without the blanks at its two ends. -/
def trimBlanks (cs : List Char) : List Char :=
  ((cs.dropWhile isBlank).reverse.dropWhile isBlank).reverse

/-- The value of a digit in base 10 or 16. -/
def digitValue (base : Nat) (c : Char) : Option Nat :=
  let n := c.toNat
  let d := if 48 ≤ n ∧ n ≤ 57 then n - 48        -- 0..9
    else if 97 ≤ n ∧ n ≤ 102 then n - 87          -- a..f
    else if 65 ≤ n ∧ n ≤ 70 then n - 55           -- A..F
    else base
  if d < base then some d else none

/-- The number written by digits in a base, read on from `acc`. -/
def digitsValue (base : Nat) : Nat → List Char → Option Nat
  | acc, []      => some acc
  | acc, c :: cs => (digitValue base c).bind fun d => digitsValue base (acc * base + d) cs

/-- A number: decimal or `0x` hexadecimal (R89). -/
def number : List Char → Option Nat
  | []                  => none
  | '0' :: 'x' :: []    => none
  | '0' :: 'x' :: c :: cs => digitsValue 16 0 (c :: cs)
  | c :: cs             => digitsValue 10 0 (c :: cs)

/-- The parts of a text between its commas. -/
def commaParts : List Char → List (List Char)
  | []      => [[]]
  | c :: cs =>
    if c == ',' then [] :: commaParts cs
    else match commaParts cs with
      | []      => [[c]]
      | x :: xs => (c :: x) :: xs

/-- The operands of a line: none where the text is blank. -/
def operandList (cs : List Char) : Option (List Nat) :=
  match trimBlanks cs with
  | []      => some []
  | c :: ds => (commaParts (c :: ds)).mapM fun part => number (trimBlanks part)

/-- The encoded command of a mnemonic and its operands, for a block of storage width `W` (R89). -/
def assembleCommand (W : Nat) (mnemonic : List Char) (operands : List Nat) : Option (Header × Word) :=
  let byte (n : Nat) (k : Byte → Option (Header × Word)) := if n < 256 then k (BitVec.ofNat 8 n) else none
  let data (n : Nat) (k : Word → Option (Header × Word)) := if n < 2 ^ W then k (trunc W n) else none
  match mnemonic, operands with
  | ['n', 'e', 'w'], [n] => byte n fun n => some (encode (.new n))
  | ['f', 'r', 'o', 'm'], [raw] => data raw fun raw => some (encode (.fromRaw raw))
  | ['a', 'd', 'd'], [p, w] => byte p fun p => byte w fun w => some (encode (.add p w))
  | ['i', 'n', 's', 'e', 'r', 't'], [p, w, d, z] =>
      byte p fun p => byte w fun w => data d fun d => byte z fun z => some (encode (.insert p w z d))
  | ['g', 'e', 't'], [p] => byte p fun p => some (encode (.get p))
  | ['g', 'e', 't', '_', 'a', 's'], [p, t] =>
      byte p fun p => if t < 16 then some (encode (.getAs p (BitVec.ofNat 4 t))) else none
  | ['g', 'e', 't', '_', 'r', 'a', 'w'], [] => some (encode .getRaw)
  | ['.', 'c', 'm', 'd'], [h] => if h < 2 ^ 32 then some (BitVec.ofNat 32 h, 0) else none
  | ['.', 'c', 'm', 'd'], [h, d] =>
      if h < 2 ^ 32 then data d fun d => some (BitVec.ofNat 32 h, d) else none
  | _, _ => none

/-- One line: the commands it emits (none for a blank line or a comment, else one), or `none` where it is no line of
the syntax. -/
def assembleLine (W : Nat) (line : List Char) : Option (List (Header × Word)) :=
  match trimBlanks (line.takeWhile (· != ';')) with
  | []      => some []
  | c :: cs =>
    let text := c :: cs
    ((operandList (text.dropWhile (!isBlank ·))).bind fun operands =>
      assembleCommand W (text.takeWhile (!isBlank ·)) operands).map fun command => [command]

/-- A program: the commands of its lines in order (R89). -/
def assemble (W : Nat) (lines : List (List Char)) : Option (List (Header × Word)) :=
  (lines.mapM (assembleLine W)).map List.flatten

end Sys2Proof.Machine
end

