-- ==== Sys2Proof/Safety.lean ====
section
/-! DEFINITION. The terms claims about the block are stated in: runs of clock edges, what the ports show along a run, and
the invariants of the spec (10_state.md R32 to R36, 30_encoding.md R86). -/

namespace Sys2Proof.Machine

/-! ## Runs and what the ports show -/

/-- `k` clock edges. -/
def run : Nat → State → Result
  | 0, s     => .next s
  | k + 1, s =>
    match step s with
    | .next t    => run k t
    | .fault r   => .fault r
    | .refused r => .refused r

/-- A command's response, from the registers its performance leaves. -/
def responseOf : Result → List Response
  | .next t    => [⟨t.rspStatus, t.rspData⟩]
  | .fault _   => []
  | .refused _ => []

/-- The command the next edge accepts, decoded; `none` where it accepts none or a reserved opcode. -/
def State.nextCommand (s : State) : Option Instr :=
  s.fetch.bind fun c => (decode c.1 c.2).toOption

/-- The response the command accepted at the next edge is answered with, if one is accepted. -/
def State.accepted (s : State) : List Response :=
  match s.fetch with
  | some (hdr, cdata) => responseOf (perform hdr cdata s.acceptEdge)
  | none              => []

/-- The response that transfers at the next edge, if one does. -/
def State.delivered (s : State) : List Response := s.transfer.toList

/-- The response of the command in flight, if one is. -/
def State.inFlight (s : State) : List Response :=
  if s.phase.isIdle then [] else [⟨s.rspStatus, s.rspData⟩]

/-- The responses of the commands accepted along `k` edges, in order. -/
def acceptedIn : Nat → State → List Response
  | 0, _     => []
  | k + 1, s => s.accepted ++ (match step s with
    | .next t    => acceptedIn k t
    | .fault _   => []
    | .refused _ => [])

/-- The responses that transfer along `k` edges, in order. -/
def deliveredIn : Nat → State → List Response
  | 0, _     => []
  | k + 1, s => s.delivered ++ (match step s with
    | .next t    => deliveredIn k t
    | .fault _   => []
    | .refused _ => [])

/-- A list of commands performed one after another, each to its end (R68). -/
def performAll : List Instr → State → Result
  | [], s      => .next s
  | i :: is, s =>
    match exec i s with
    | .next t    => performAll is t
    | .fault r   => .fault r
    | .refused r => .refused r

/-! ## Invariants -/

/-- `STORAGE` is a `W`-bit register (R31). -/
abbrev State.StorageFits (s : State) : Prop := s.storage.toNat < 2 ^ s.cfg.W

/-- `NUMBITS <= W` (R32). -/
abbrev State.CapacityFits (s : State) : Prop := s.numbits.toNat ≤ s.cfg.W

/-- The field table has `W + 1` slots (R33). -/
abbrev State.TableShaped (s : State) : Prop := s.entry.length = s.cfg.W + 1

/-- Every valid slot `p` has `p + ENTRY[p].w <= NUMBITS` (R35). -/
abbrev State.FieldsInBounds (s : State) : Prop :=
  ∀ p < s.cfg.W + 1, (s.entryAt p).v = true → p + (s.entryAt p).w.toNat ≤ s.numbits.toNat

/-- An invalid slot holds width 0 (R33, R34). -/
abbrev State.EmptySlotsZero (s : State) : Prop :=
  ∀ p < s.cfg.W + 1, (s.entryAt p).v = false → (s.entryAt p).w = 0

/-- `RSP_DATA` is a `W`-bit register (R86). -/
abbrev State.ResponseFits (s : State) : Prop := s.rspData.toNat < 2 ^ s.cfg.W

/-- `RSP_DATA` is 0 whenever the status is not `OK` (R86). -/
abbrev State.OnlyOkCarriesData (s : State) : Prop := s.rspStatus ≠ .ok → s.rspData = 0

/-- How many edges a command in flight may still be away from its response: fewer than `LATENCY` (R80). -/
def Phase.within (latency : Nat) : Phase → Bool
  | .idle           => true
  | .computing left => decide (1 ≤ left ∧ left < latency)
  | .responding     => true

/-- The invariant of the block. -/
abbrev State.Inv (s : State) : Prop :=
  s.cfg.Admitted ∧ s.StorageFits ∧ s.CapacityFits ∧ s.TableShaped ∧ s.FieldsInBounds ∧ s.EmptySlotsZero ∧
    s.ResponseFits ∧ s.OnlyOkCarriesData ∧ s.phase.within s.cfg.latency = true

/-- Bit position `i` belongs to the field registered at `p` (R16). -/
abbrev State.Covers (s : State) (p i : Nat) : Prop :=
  (s.entryAt p).v = true ∧ p ≤ i ∧ i < p + (s.entryAt p).w.toNat

/-- No two registered fields share a bit position: the source's "overlap" (00_scope.md section 5). It is no invariant of
the block (R36). -/
abbrev State.NoOverlap (s : State) : Prop :=
  ∀ p ∈ List.range (s.cfg.W + 1), ∀ q ∈ List.range (s.cfg.W + 1), p ≠ q →
    ∀ i ∈ List.range s.cfg.W, ¬ (s.Covers p i ∧ s.Covers q i)

/-- Two states that differ at most in the widths their invalid slots hold (R34). -/
def SameButInvalidWidths (s s' : State) : Prop :=
  s' = { s with entry := s'.entry } ∧ s'.entry.length = s.entry.length ∧
    ∀ p, (s'.entryAt p).v = (s.entryAt p).v ∧ ((s.entryAt p).v = true → (s'.entryAt p).w = (s.entryAt p).w)

/-- The fields of a state in order of position, as the ADD commands that register them (R232). -/
def State.addCommands (s : State) : List Instr :=
  ((List.range (s.cfg.W + 1)).filter fun p => (s.entryAt p).v).map fun p =>
    .add (BitVec.ofNat 8 p) (s.entryAt p).w

end Sys2Proof.Machine
end

