-- ==== Sys2Proof/Certificates/Slice0/Obligations.lean ====
section
/-! DEFINITION. The statements about the block, for the provers. Each docstring names the rules of spec/ it comes from.
Arithmetic on the right-hand sides is on exact integers, as in the rules (R17); bits are numbered from 0, the least
significant (R16). -/

open Sys2Proof
open Sys2Proof.Machine

/-! ## Encoding -/

/-- Decoding the encoding of a well-formed command gives it back, its data carried on a `W`-bit port (30_encoding.md
R81 to R83, R89). -/
def Obligations.DecodeOfEncodeGivesCommandBack : Prop :=
  ∀ (W : Nat), W ≤ maxW → ∀ i : Instr, i.wellFormed W = true →
    decode (encode i).1 (trunc W (encode i).2.toNat) = .command i

/-- The other direction: what decodes to a command is that command's encoding in every bit the command uses
(30_encoding.md R83, R85, R89). -/
def Obligations.EncodeOfDecodeKeepsUsedBits : Prop :=
  ∀ (hdr : Header) (cdata : Word) (i : Instr), decode hdr cdata = .command i →
    opcode i = fieldOP hdr ∧ (encode i).1 = hdr &&& usedBits (fieldOP hdr) ∧
    (encode i).2 = if usesData (fieldOP hdr) then cdata else 0

/-- The header of a command is `(DSIZE << 24) | (WID << 16) | (POS << 8) | (TSEL << 4) | OP`, fields not written being
0 (30_encoding.md R89, section 6). -/
def Obligations.EncodedHeaderFollowsFormula : Prop :=
  (∀ n : Byte, (encode (.new n)).1.toNat = (n.toNat <<< 16) ||| 0) ∧
  (∀ raw : Word, (encode (.fromRaw raw)).1.toNat = 1 ∧ (encode (.fromRaw raw)).2 = raw) ∧
  (∀ pos wid : Byte, (encode (.add pos wid)).1.toNat = (wid.toNat <<< 16) ||| (pos.toNat <<< 8) ||| 2) ∧
  (∀ (pos wid dsize : Byte) (dat : Word),
    (encode (.insert pos wid dsize dat)).1.toNat =
      (dsize.toNat <<< 24) ||| (wid.toNat <<< 16) ||| (pos.toNat <<< 8) ||| 3 ∧
    (encode (.insert pos wid dsize dat)).2 = dat) ∧
  (∀ pos : Byte, (encode (.get pos)).1.toNat = (pos.toNat <<< 8) ||| 4) ∧
  (∀ (pos : Byte) (tsel : BitVec 4),
    (encode (.getAs pos tsel)).1.toNat = (pos.toNat <<< 8) ||| (tsel.toNat <<< 4) ||| 5) ∧
  (encode .getRaw).1.toNat = 6

/-- R83: `OP = HDR[3:0]` selects the command, and its operands are the header fields, unscaled, as `HDR` is
read as one number. -/
def Obligations.OpcodeSelectsCommandAndOperands : Prop :=
  ∀ (hdr : Header) (cdata : Word),
    let pos : Byte := BitVec.ofNat 8 (hdr.toNat / 2 ^ 8 % 256)
    let wid : Byte := BitVec.ofNat 8 (hdr.toNat / 2 ^ 16 % 256)
    let dsize : Byte := BitVec.ofNat 8 (hdr.toNat / 2 ^ 24)
    let tsel : BitVec 4 := BitVec.ofNat 4 (hdr.toNat / 2 ^ 4 % 16)
    (hdr.toNat % 16 = 0 → decode hdr cdata = .command (.new wid)) ∧
    (hdr.toNat % 16 = 1 → decode hdr cdata = .command (.fromRaw cdata)) ∧
    (hdr.toNat % 16 = 2 → decode hdr cdata = .command (.add pos wid)) ∧
    (hdr.toNat % 16 = 3 → decode hdr cdata = .command (.insert pos wid dsize cdata)) ∧
    (hdr.toNat % 16 = 4 → decode hdr cdata = .command (.get pos)) ∧
    (hdr.toNat % 16 = 5 → decode hdr cdata = .command (.getAs pos tsel)) ∧
    (hdr.toNat % 16 = 6 → decode hdr cdata = .command .getRaw) ∧
    (7 ≤ hdr.toNat % 16 →
      decode hdr cdata = .reject (.reservedOpcode (BitVec.ofNat 4 (hdr.toNat % 16))))

/-- R85: the header fields and the data word a command does not use are ignored, whatever they hold: the two commands do
the same. `used op` are the header bits in the "operands used" column of R83. -/
def Obligations.UnusedFieldsAreIgnored : Prop :=
  ∀ (hdr hdr' : Header) (cdata cdata' : Word) (s : State),
    hdr &&& usedBits (fieldOP hdr) = hdr' &&& usedBits (fieldOP hdr) →
    (hdr.toNat % 16 = 1 ∨ hdr.toNat % 16 = 3 → cdata = cdata') →
    perform hdr cdata s = perform hdr' cdata' s

/-- R90: the worked encodings, both ways. -/
def Obligations.WorkedEncodingsAgree : Prop :=
  encode (.insert 2 5 1 2) = (0x01050203, 2) ∧ decode 0x01050203 2 = .command (.insert 2 5 1 2) ∧
  encode (.get 7) = (0x00000704, 0) ∧ decode 0x00000704 0 = .command (.get 7) ∧
  encode (.new 8) = (0x00080000, 0) ∧ decode 0x00080000 0 = .command (.new 8) ∧
  encode (.getAs 0 8) = (0x00000085, 0) ∧ decode 0x00000085 0 = .command (.getAs 0 8) ∧
  encode .getRaw = (0x00000006, 0) ∧ decode 0x00000006 0 = .command .getRaw

/-- The numbers of an assembly line are the encoding of the command it writes, at the examples of R89 and R90 and for
the raw directive (30_encoding.md section 6). That a line which is only a comment emits no command is the model's (log
entry 7, DESIGN CHOICE). -/
def Obligations.AssembledLinesGiveWorkedEncodings : Prop :=
  assembleLine 32 "insert 2, 5, 2, 1".toList = some [(0x01050203, 2)] ∧
  assembleLine 32 "get_as 0, 8 ; read A".toList = some [(0x00000085, 0)] ∧
  assembleLine 32 ".cmd 0x00AB0001, 0x12345678".toList = some [(0x00AB0001, 0x12345678)] ∧
  assembleLine 32 "; a comment".toList = some []

/-! ## The step and the handshake -/

/-- When the block is ready and the command on its port decodes to `i`, the step is `exec` of `i` at that state with the
handshake moved on: the edge's input consumed and the command in flight (R80, R235). -/
def Obligations.StepPerformsAcceptedCommand : Prop :=
  ∀ (s : State) (p : PortInput) (rest : List PortInput) (i : Instr),
    s.cfg.Admitted → s.phase = .idle → s.inputs = p :: rest → p.rst = false → p.cmdValid = true →
    decode p.cmdHdr (trunc s.cfg.W p.cmdData.toNat) = .command i →
    step s = exec i { s with phase := Phase.afterAccept s.cfg.latency, inputs := rest }

/-- The step after a command is placed on the port runs exactly that command. -/
def Obligations.FetchWordRunsItsCommand : Prop :=
  ∀ (s : State) (nbits w : Nat) (i : Instr),
    s.cfg.Admitted → decodeTableWord nbits w = some i → i.wellFormed s.cfg.W = true →
    step (s.withFetchWord nbits w) = exec i { s with phase := Phase.afterAccept s.cfg.latency }

/-- An accepted reserved opcode changes no state and is answered `ILLEGAL_COMMAND` with data 0; and every header decodes to
a command or to that response (30_encoding.md R84, 60_exceptions.md R206). Two parts of the step clause are the model's:
the phase the edge leaves (the reading of `LATENCY`, log entry 4, DEDUCED), and that the response registers are written
at the accepting edge already (log entry 9, DESIGN CHOICE). -/
def Obligations.ReservedOpcodeAnswersIllegalCommand : Prop :=
  (∀ (s : State) (p : PortInput) (rest : List PortInput),
    s.cfg.Admitted → s.phase = .idle → s.inputs = p :: rest → p.rst = false → p.cmdValid = true →
    7 ≤ p.cmdHdr.toNat % 16 →
    step s = .next { s with
      rspStatus := .illegalCommand, rspData := 0, phase := Phase.afterAccept s.cfg.latency, inputs := rest }) ∧
  (∀ (hdr : Header) (cdata : Word),
    (hdr.toNat % 16 < 7 → ∃ i, decode hdr cdata = .command i) ∧
    (7 ≤ hdr.toNat % 16 → ∃ e, decode hdr cdata = .reject e)) ∧
  Status.illegalCommand.code = 6

/-- At an edge with `rst = 1`, in any state, the block takes the reset state, which is the state a successful NEW with
`NBITS = W` gives under either `CAP_MODE`; it accepts no command and delivers no response, and it is ready in the first
cycle after (70_reset_and_hazards.md R230, R231). That nothing transfers at the reset edge itself is the model's reading
(log entry 5, DEDUCED). -/
def Obligations.ResetEdgeGivesFreshSet : Prop :=
  ∀ (s : State) (p : PortInput) (rest : List PortInput),
    s.cfg.Admitted → s.inputs = p :: rest → p.rst = true →
    s.cmdReady = false ∧ s.fetch = none ∧ s.transfer = none ∧
    ∃ t, step s = .next t ∧ t.cfg = s.cfg ∧ t.inputs = rest ∧
      t.storage = 0 ∧ t.numbits.toNat = s.cfg.W ∧ t.entry.length = s.cfg.W + 1 ∧
      (∀ q, t.entryAt q = ⟨false, 0⟩) ∧ t.rspStatus.code = 0 ∧ t.rspData = 0 ∧ t.rspValid = false ∧
      (t.pins.rst = false → t.cmdReady = true) ∧
      ∀ u : State, u.cfg = s.cfg → ∃ v, exec (.new (BitVec.ofNat 8 s.cfg.W)) u = .next v ∧
        v.rspStatus = .ok ∧ v.storage = t.storage ∧ v.numbits = t.numbits ∧ v.entry = t.entry

/-- The reset state of `COMPAT` (R230): `STORAGE = 0`, `NUMBITS = 32`, 33 invalid slots, nothing in flight. The
configuration and the empty list of inputs are the model's (log entries 2 and 3). -/
def Obligations.ResetStateOfCompat : Prop :=
  State.reset.storage = 0 ∧ State.reset.numbits = 32 ∧ State.reset.entry = List.replicate 33 ⟨false, 0⟩ ∧
  State.reset.rspStatus.code = 0 ∧ State.reset.rspData = 0 ∧ State.reset.rspValid = false ∧
  State.reset.cmdReady = true ∧ State.reset.cfg = Config.compat

/-- While a command is in flight the block accepts none, and what the command port shows makes no difference (30_encoding.md
R80, 70_reset_and_hazards.md R235). That no register changes meanwhile holds of the response registers by the model's
choice: they are written at acceptance and keep their value after the transfer (log entry 9, DESIGN CHOICE). -/
def Obligations.BusyBlockIgnoresCommandPort : Prop :=
  ∀ (s : State) (p : PortInput) (rest : List PortInput) (valid : Bool) (hdr : Header) (data : Word),
    s.cfg.Admitted → s.phase ≠ .idle → s.inputs = p :: rest → p.rst = false →
    s.cmdReady = false ∧
    step s = step { s with inputs := { p with cmdValid := valid, cmdHdr := hdr, cmdData := data } :: rest } ∧
    ∃ ph, step s = .next { s with phase := ph, inputs := rest }

/-- A presented response stays, the registers unchanged, until the requester takes it, and the block is then ready for a
command (10_state.md R42, 30_encoding.md R80). That the response registers also keep their value at the transferring edge
and after it is the model's (log entry 9, DESIGN CHOICE). -/
def Obligations.ResponseHeldUntilTaken : Prop :=
  ∀ (s : State) (r : Response), s.cfg.Admitted → s.rspPort = some r →
    r = ⟨s.rspStatus, s.rspData⟩ ∧ s.cmdReady = false ∧
    (s.pins.rspReady = false → s.transfer = none ∧ step s = .next { s with inputs := s.inputs.tail }) ∧
    (s.pins.rspReady = true →
      s.transfer = some r ∧ step s = .next { s with phase := .idle, inputs := s.inputs.tail })

/-- A command's response is presented after exactly `LATENCY` edges, the accepting edge counted as the first (30_encoding.md
R80, 70_reset_and_hazards.md R236), its state change being there from that edge on: after `j <= LATENCY` edges the
registers are those its performance left. Two things are the model's: which edge counts as "`LATENCY` cycles later" (log
entry 4, DEDUCED), and that the response registers hold the result before `rsp_valid` shows it (log entry 9, DESIGN
CHOICE). -/
def Obligations.ResponseAppearsAfterLatency : Prop :=
  ∀ (s : State) (hdr : Header) (cdata : Word),
    s.cfg.Admitted → s.fetch = some (hdr, cdata) → (∀ p ∈ s.inputs.take s.cfg.latency, p.rst = false) →
    ∃ u, perform hdr cdata s.acceptEdge = .next u ∧
      ∀ j, 1 ≤ j → j ≤ s.cfg.latency →
        run j s = .next { u with
          phase := if j = s.cfg.latency then .responding else .computing (s.cfg.latency - j)
          inputs := s.inputs.drop j }

/-- R237: responses leave in command order, one per accepted command, never more and never fewer: along any number of
edges without a reset, what was in flight and what was accepted is what was delivered and what is in flight at the end,
in that order; and a reset can only leave responses out. -/
def Obligations.ResponsesLeaveInCommandOrder : Prop :=
  ∀ (k : Nat) (s : State), s.cfg.Admitted →
    ∃ t, run k s = .next t ∧
      ((∀ p ∈ s.inputs.take k, p.rst = false) →
        s.inFlight ++ acceptedIn k s = deliveredIn k s ++ t.inFlight) ∧
      (deliveredIn k s).Sublist (s.inFlight ++ acceptedIn k s)

/-- The handshake may be abstracted to one step per command (30_encoding.md R80): a command accepted at the next edge, its
response taken at the first edge at which it is presented, leaves after `LATENCY + 1` edges, the accepting edge counted as
the first, exactly what performing it on the registers leaves, the block idle, and delivers exactly that one response.
The counting of edges is the model's reading (log entry 4, DEDUCED), and that the response registers keep their value
after the transfer is the model's choice (log entry 9, DESIGN CHOICE). -/
def Obligations.HandshakeRefinesOneCommandStep : Prop :=
  ∀ (s : State) (hdr : Header) (cdata : Word),
    s.cfg.Admitted → s.fetch = some (hdr, cdata) →
    (∀ p ∈ s.inputs.take (s.cfg.latency + 1), p.rst = false) →
    (∃ p, s.inputs[s.cfg.latency]? = some p ∧ p.rspReady = true) →
    ∃ u, perform hdr cdata s = .next u ∧
      run (s.cfg.latency + 1) s = .next { u with inputs := s.inputs.drop (s.cfg.latency + 1) } ∧
      deliveredIn (s.cfg.latency + 1) s = [⟨u.rspStatus, u.rspData⟩]

/-- No error is a trap (60_exceptions.md R209): every command on every state, and every edge of a block that can be
built, answers a next state. A configuration the spec does not admit faults, which is the model's (log entry 6). -/
def Obligations.EveryEdgeAnswersANextState : Prop :=
  (∀ (i : Instr) (s : State), ∃ t, exec i s = .next t) ∧
  (∀ s : State, s.cfg.Admitted → ∃ t, step s = .next t) ∧
  (∀ s : State, ¬ s.cfg.Admitted → step s = .fault .configNotAdmitted)

/-! ## Invariants and whole-machine rules -/

/-- The invariant of the block holds after every edge from every state in which it holds: `STORAGE` and `RSP_DATA` are
`W`-bit values, `NUMBITS <= W` (R32), the table has `W + 1` slots, every field lies within `NUMBITS` (R35), invalid slots
hold width 0 (R34), only `OK` carries data (R86), and a command in flight is within `LATENCY` of its response. -/
def Obligations.EveryEdgeKeepsInvariant : Prop :=
  ∀ s t : State, s.Inv → step s = .next t → t.Inv

/-- The invariant holds after reset, for every configuration the spec admits. -/
def Obligations.ResetMeetsInvariant : Prop :=
  (∀ (c : Config) (ins : List PortInput), c.Admitted → (State.resetOf c ins).Inv) ∧ State.reset.Inv

/-- No command and no edge writes the configuration (10_state.md R38). -/
def Obligations.ConfigurationNeverChanges : Prop :=
  (∀ (i : Instr) (s t : State), exec i s = .next t → t.cfg = s.cfg) ∧
  (∀ s t : State, step s = .next t → t.cfg = s.cfg)

/-- Under `CAP_MODE = WIDEN` the capacity, `W` after reset, stays `W` along every run, so NEW's argument is advisory
(10_state.md R44, 40_construction.md R121). -/
def Obligations.WidenKeepsFullCapacity : Prop :=
  ∀ (k : Nat) (s t : State), s.cfg.capMode = .widen → s.cfg.Admitted → s.numbits.toNat = s.cfg.W →
    run k s = .next t → t.numbits.toNat = t.cfg.W

/-- R36: with `STRICT_OVERLAP = 1` ADD never creates an intersection of two fields; with 0 it detects only a field at
exactly its start position and may create one; INSERT never reports an overlap and may create one under either. So
non-overlap is no invariant of the block. -/
def Obligations.OnlyStrictAddKeepsFieldsDisjoint : Prop :=
  (∀ (s t : State) (pos wid : Byte), s.Inv → s.cfg.strictOverlap = true → s.NoOverlap →
    exec (.add pos wid) s = .next t → t.NoOverlap) ∧
  (∀ (s t : State) (pos wid : Byte), s.cfg.strictOverlap = false → exec (.add pos wid) s = .next t →
    (t.rspStatus = .wouldOverlap ↔
      pos.toNat + wid.toNat ≤ s.numbits.toNat ∧ (s.entryAt pos.toNat).v = true)) ∧
  (∃ (s t : State) (pos wid : Byte), s.Inv ∧ s.cfg.strictOverlap = false ∧ s.NoOverlap ∧
    exec (.add pos wid) s = .next t ∧ ¬ t.NoOverlap) ∧
  (∀ strict : Bool, ∃ (s t : State) (pos wid dsize : Byte) (dat : Word), s.Inv ∧
    s.cfg.strictOverlap = strict ∧ s.NoOverlap ∧
    exec (.insert pos wid dsize dat) s = .next t ∧ ¬ t.NoOverlap) ∧
  (∀ (s t : State) (pos wid dsize : Byte) (dat : Word), exec (.insert pos wid dsize dat) s = .next t →
    t.rspStatus ≠ .wouldOverlap)

/-- Which commands write which register (10_state.md R31, R32, R37): an edge changes `STORAGE` only if it resets or
accepts NEW, FROM or INSERT, `NUMBITS` only if it resets or accepts NEW or FROM, and the field table only if it resets
or accepts NEW, FROM, ADD or INSERT. -/
def Obligations.RegistersHaveTheirWritersOnly : Prop :=
  ∀ s t : State, s.pins.rst = false → step s = .next t →
    (t.storage ≠ s.storage → (∃ n, s.nextCommand = some (.new n)) ∨ (∃ raw, s.nextCommand = some (.fromRaw raw)) ∨
      ∃ pos wid dsize dat, s.nextCommand = some (.insert pos wid dsize dat)) ∧
    (t.numbits ≠ s.numbits → (∃ n, s.nextCommand = some (.new n)) ∨ ∃ raw, s.nextCommand = some (.fromRaw raw)) ∧
    (t.entry ≠ s.entry → (∃ n, s.nextCommand = some (.new n)) ∨ (∃ raw, s.nextCommand = some (.fromRaw raw)) ∨
      (∃ pos wid, s.nextCommand = some (.add pos wid)) ∨
      ∃ pos wid dsize dat, s.nextCommand = some (.insert pos wid dsize dat))

/-- R37: a registered field stays as it is unless an INSERT re-registers its position, with the INSERT's width, or a NEW
or FROM (or a reset) invalidates every slot; no command removes a single entry. -/
def Obligations.RegisteredFieldsAreNeverDropped : Prop :=
  ∀ (s t : State) (p : Nat), s.Inv → s.pins.rst = false → step s = .next t → p ≤ s.cfg.W →
    (s.entryAt p).v = true → t.entryAt p ≠ s.entryAt p →
    (∃ (pos wid dsize : Byte) (dat : Word), s.nextCommand = some (.insert pos wid dsize dat) ∧
      pos.toNat = p ∧ t.entryAt p = ⟨true, wid⟩) ∨
    (((∃ n, s.nextCommand = some (.new n)) ∨ ∃ raw, s.nextCommand = some (.fromRaw raw)) ∧
      ∀ q, (t.entryAt q).v = false)

/-- R207: a command that ends in a status other than `OK` changes no state: nothing but the response
registers differs, and the response data is 0. -/
def Obligations.FailingCommandChangesNoState : Prop :=
  ∀ (hdr : Header) (cdata : Word) (s t : State), perform hdr cdata s = .next t → t.rspStatus ≠ .ok →
    t = { s with rspStatus := t.rspStatus, rspData := 0 }

/-- The status codes (30_encoding.md R87), and which statuses each command can be answered with (60_exceptions.md R200);
code 7 is never produced. -/
def Obligations.StatusesEachCommandCanGive : Prop :=
  (∀ (n : Byte) (s t : State), exec (.new n) s = .next t → t.rspStatus ∈ [.ok, .outOfBounds]) ∧
  (∀ (raw : Word) (s t : State), exec (.fromRaw raw) s = .next t → t.rspStatus = .ok) ∧
  (∀ (pos wid : Byte) (s t : State), exec (.add pos wid) s = .next t →
    t.rspStatus ∈ [.ok, .outOfBounds, .wouldOverlap]) ∧
  (∀ (pos wid dsize : Byte) (dat : Word) (s t : State), exec (.insert pos wid dsize dat) s = .next t →
    t.rspStatus ∈ [.ok, .outOfBounds, .dataTooLarge]) ∧
  (∀ (pos : Byte) (s t : State), exec (.get pos) s = .next t → t.rspStatus ∈ [.ok, .absent]) ∧
  (∀ (pos : Byte) (tsel : BitVec 4) (s t : State), exec (.getAs pos tsel) s = .next t →
    t.rspStatus ∈ [.ok, .tryFromError]) ∧
  (∀ s t : State, exec .getRaw s = .next t → t.rspStatus = .ok) ∧
  (∀ (hdr : Header) (cdata : Word) (s t : State), 7 ≤ hdr.toNat % 16 → perform hdr cdata s = .next t →
    t.rspStatus = .illegalCommand) ∧
  [Status.ok, .outOfBounds, .wouldOverlap, .dataTooLarge, .tryFromError, .absent, .illegalCommand].map Status.code =
    [0, 1, 2, 3, 4, 5, 6] ∧
  (∀ st : Status, st.code ≠ 7)

/-- R67: GET, GET_AS and GET_RAW change nothing but the response registers, and give the same response however often
they are performed and whatever other reads come between, since that does not depend on the response registers. -/
def Obligations.ReadsChangeNoState : Prop :=
  ∀ (i : Instr) (s : State),
    ((∃ pos, i = .get pos) ∨ (∃ pos tsel, i = .getAs pos tsel) ∨ i = .getRaw) →
    ∃ st d, exec i s = .next { s with rspStatus := st, rspData := d } ∧
      ∀ st' d', exec i { s with rspStatus := st', rspData := d' } = .next { s with rspStatus := st, rspData := d }

/-- The width an invalid slot holds is never observable (10_state.md R34): two blocks that differ only there show the
same ports and answer every edge alike, and differ only there after it. -/
def Obligations.InvalidWidthsAreNeverObservable : Prop :=
  ∀ s s' t : State, SameButInvalidWidths s s' → step s = .next t →
    s'.rspPort = s.rspPort ∧ s'.cmdReady = s.cmdReady ∧
    ∃ t', step s' = .next t' ∧ SameButInvalidWidths t t'

/-- No command's effect depends on `LATENCY` (00_scope.md R14, 70_reset_and_hazards.md R236). -/
def Obligations.LatencyChangesNoEffect : Prop :=
  ∀ (hdr : Header) (cdata : Word) (s t : State) (latency : Nat), perform hdr cdata s = .next t →
    perform hdr cdata { s with cfg := { s.cfg with latency := latency } } =
      .next { t with cfg := { t.cfg with latency := latency } }

/-- Every predicate on words is an entry of the acceptance table: the plain data of `AcceptRow` shuts no `ACCEPT` out
(00_scope.md R13). -/
def Obligations.EveryAcceptPredicateHasARow : Prop :=
  ∀ f : Word → Bool, ∃ r : AcceptRow, ∀ v : Word, acceptsValue r v = f v

/-- `COMPAT`'s acceptance table (42_field_read.md R173): rows 0 to 4 accept the values below `2^8`, `2^16`, `2^32`,
`2^64`, `2^128`; rows 5 to 15 accept nothing. -/
def Obligations.CompatAcceptTable : Prop :=
  ∀ (t : BitVec 4) (v : Word), typeAccepts Config.compat t v =
    if t.toNat < 5 then decide (v.toNat < 2 ^ (8 * 2 ^ t.toNat)) else false

/-- R19: the field mask has ones at exactly the positions `[pos, pos+width)` below `W`, the corners `width = 0`,
`width = W` and `pos = W` included. -/
def Obligations.MaskOnesExactlyAtField : Prop :=
  ∀ W : Nat, W ≤ maxW →
    (∀ pos width : Nat, (mask W pos width).toNat = ((2 ^ width - 1) * 2 ^ pos) % 2 ^ W ∧
      ∀ i, (mask W pos width).getLsbD i = decide (pos ≤ i ∧ i < pos + width ∧ i < W)) ∧
    (∀ pos, mask W pos 0 = 0) ∧ (mask W 0 W).toNat = 2 ^ W - 1 ∧ mask W W 0 = 0

/-! ## Construction -/

/-- R120: NEW with `n <= W` gives an empty set of capacity `W` under `WIDEN` and `n` under `PRESERVE`; with
`n > W` it answers `OUT_OF_BOUNDS` and keeps the previous set whole. -/
def Obligations.NewConstructsEmptySet : Prop :=
  ∀ (n : Byte) (s : State),
    (n.toNat ≤ s.cfg.W →
      exec (.new n) s = .next { s with
        storage := 0
        numbits := BitVec.ofNat 8 (if s.cfg.capMode = .widen then s.cfg.W else n.toNat)
        entry := List.replicate (s.cfg.W + 1) ⟨false, 0⟩
        rspStatus := .ok, rspData := 0 }) ∧
    (s.cfg.W < n.toNat → exec (.new n) s = .next { s with rspStatus := .outOfBounds, rspData := 0 })

/-- R122: FROM loads the raw word verbatim, with capacity `W` in every mode and no field registered; it always
succeeds. -/
def Obligations.FromLoadsRawWord : Prop :=
  ∀ (raw : Word) (s : State), s.cfg.Admitted → (Instr.fromRaw raw).wellFormed s.cfg.W = true →
    exec (.fromRaw raw) s = .next { s with
      storage := raw, numbits := BitVec.ofNat 8 s.cfg.W
      entry := List.replicate (s.cfg.W + 1) ⟨false, 0⟩
      rspStatus := .ok, rspData := 0 }

/-- R123: after a successful NEW or FROM no field is known: a read at any position finds none, and every width is 0. -/
def Obligations.ConstructionForgetsEveryField : Prop :=
  ∀ (i : Instr) (s t : State), ((∃ n, i = .new n) ∨ ∃ raw, i = .fromRaw raw) →
    exec i s = .next t → t.rspStatus = .ok →
    (∀ q, t.entryAt q = ⟨false, 0⟩) ∧
    ∀ (pos : Byte) (tsel : BitVec 4),
      exec (.get pos) t = .next { t with rspStatus := .absent, rspData := 0 } ∧
      exec (.getAs pos tsel) t = .next { t with rspStatus := .tryFromError, rspData := 0 }

/-! ## Field writes -/

/-- R144, R141: ADD checks bounds, then overlap, the strict check being that some other registered field shares a
bit position with the candidate; else it registers the field and changes nothing else. -/
def Obligations.AddRegistersField : Prop :=
  ∀ (pos wid : Byte) (s : State), s.Inv →
    let claimed := (s.entryAt pos.toNat).v = true ∨ (s.cfg.strictOverlap = true ∧
      ∃ q i, q ≠ pos.toNat ∧ q ≤ s.cfg.W ∧ s.Covers q i ∧ pos.toNat ≤ i ∧ i < pos.toNat + wid.toNat)
    (s.numbits.toNat < pos.toNat + wid.toNat →
      exec (.add pos wid) s = .next { s with rspStatus := .outOfBounds, rspData := 0 }) ∧
    (pos.toNat + wid.toNat ≤ s.numbits.toNat → claimed →
      exec (.add pos wid) s = .next { s with rspStatus := .wouldOverlap, rspData := 0 }) ∧
    (pos.toNat + wid.toNat ≤ s.numbits.toNat → ¬ claimed →
      ∃ table, exec (.add pos wid) s = .next { s with entry := table, rspStatus := .ok, rspData := 0 } ∧
        table.length = s.entry.length ∧
        ∀ q, table.getD q Entry.empty = if q = pos.toNat then ⟨true, wid⟩ else s.entryAt q)

/-- R145: INSERT checks bounds, then type size, then value range; else it writes the word bit by bit, registers the
field over any earlier one, and answers the data unmasked. `NUMBITS` and every other slot are unchanged. -/
def Obligations.InsertWritesAndRegistersField : Prop :=
  ∀ (pos wid dsize : Byte) (data : Word) (s : State), s.Inv →
    (Instr.insert pos wid dsize data).wellFormed s.cfg.W = true →
    let size := if s.cfg.dtlUnit = .bytes then dsize.toNat else 8 * dsize.toNat
    let tooWide := s.cfg.valueCheck = true ∧ 2 ^ wid.toNat ≤ data.toNat
    (s.numbits.toNat < pos.toNat + wid.toNat →
      exec (.insert pos wid dsize data) s = .next { s with rspStatus := .outOfBounds, rspData := 0 }) ∧
    (pos.toNat + wid.toNat ≤ s.numbits.toNat → s.numbits.toNat < size ∨ tooWide →
      exec (.insert pos wid dsize data) s = .next { s with rspStatus := .dataTooLarge, rspData := 0 }) ∧
    (pos.toNat + wid.toNat ≤ s.numbits.toNat → size ≤ s.numbits.toNat → ¬ tooWide →
      ∃ word table,
        exec (.insert pos wid dsize data) s =
          .next { s with storage := word, entry := table, rspStatus := .ok, rspData := data } ∧
        (∀ i, word.getLsbD i = (decide (i < s.cfg.W) &&
          ((s.storage.getLsbD i &&
              !(s.cfg.insertClear && decide (pos.toNat ≤ i ∧ i < pos.toNat + wid.toNat))) ||
            (decide (pos.toNat ≤ i) && data.getLsbD (i - pos.toNat))))) ∧
        table.length = s.entry.length ∧
        ∀ q, table.getD q Entry.empty = if q = pos.toNat then ⟨true, wid⟩ else s.entryAt q)

/-- R146: INSERT makes no overlap check: whatever is registered, in its own slot or in others, it gives the same status,
the same word and the same data, and never `WOULD_OVERLAP`, which only ADD answers. -/
def Obligations.InsertIgnoresRegisteredFields : Prop :=
  (∀ (i : Instr) (s t : State), exec i s = .next t → t.rspStatus = .wouldOverlap → ∃ pos wid, i = .add pos wid) ∧
  ∀ (pos wid dsize : Byte) (dat : Word) (s t : State) (table : List Entry),
    exec (.insert pos wid dsize dat) s = .next t →
    ∃ u, exec (.insert pos wid dsize dat) { s with entry := table } = .next u ∧
      u.rspStatus = t.rspStatus ∧ u.rspData = t.rspData ∧ u.storage = t.storage ∧
      (t.rspStatus = .ok → u.entry = table.set pos.toNat ⟨true, wid⟩ ∧
        t.entry = s.entry.set pos.toNat ⟨true, wid⟩)

/-- R147: two INSERTs at one field and then a GET: without clearing, the field reads as the old bits and both values
ORed; with `INSERT_CLEAR = 1` it reads as the second value. -/
def Obligations.ReinsertionKeepsStaleBits : Prop :=
  ∀ (pos wid dsize dsize' : Byte) (a b : Word) (s t u : State), s.Inv →
    exec (.insert pos wid dsize a) s = .next t → t.rspStatus = .ok →
    exec (.insert pos wid dsize' b) t = .next u → u.rspStatus = .ok →
    ∃ v, exec (.get pos) u = .next { u with rspStatus := .ok, rspData := v } ∧
      ∀ i < wid.toNat, v.getLsbD i =
        if s.cfg.insertClear then b.getLsbD i
        else s.storage.getLsbD (pos.toNat + i) || a.getLsbD i || b.getLsbD i

/-- R148: spill: the data bits at `width` and above are ORed into `STORAGE` at `[pos+width, W)` and those at `W - pos`
and above are dropped, with clearing or without; no bit below `pos` changes (no field wraps around, R64). -/
def Obligations.InsertSpillsAboveItsField : Prop :=
  ∀ (pos wid dsize : Byte) (data : Word) (s t : State), s.Inv →
    exec (.insert pos wid dsize data) s = .next t → t.rspStatus = .ok →
    (∀ i, pos.toNat + wid.toNat ≤ i → i < s.cfg.W →
      t.storage.getLsbD i = (s.storage.getLsbD i || data.getLsbD (i - pos.toNat))) ∧
    (∀ i, s.cfg.W ≤ i → t.storage.getLsbD i = false) ∧
    (∀ i < pos.toNat, t.storage.getLsbD i = s.storage.getLsbD i)

/-- R149: the round trip: INSERT of a value that fits, into a clear range or with clearing, is read back exactly by GET
in every later state with the same `STORAGE` and the same slot. -/
def Obligations.InsertedValueIsReadBack : Prop :=
  ∀ (pos wid dsize : Byte) (data : Word) (s : State), s.Inv →
    pos.toNat + wid.toNat ≤ s.numbits.toNat → data.toNat < 2 ^ wid.toNat → s.dtl dsize.toNat = false →
    (s.cfg.insertClear = true ∨
      ∀ i, pos.toNat ≤ i → i < pos.toNat + wid.toNat → s.storage.getLsbD i = false) →
    ∃ t, exec (.insert pos wid dsize data) s = .next t ∧ t.rspStatus = .ok ∧
      ∀ u : State, u.cfg = t.cfg → u.storage = t.storage → u.entryAt pos.toNat = t.entryAt pos.toNat →
        exec (.get pos) u = .next { u with rspStatus := .ok, rspData := data }

/-- R201: `OUT_OF_BOUNDS` is answered exactly by a NEW of more than `W` bits and by an ADD or INSERT of a
field past the capacity, the sum not wrapping. -/
def Obligations.OutOfBoundsExactlyWhenPastCapacity : Prop :=
  (∀ (n : Byte) (s t : State), exec (.new n) s = .next t → (t.rspStatus = .outOfBounds ↔ n.toNat > s.cfg.W)) ∧
  (∀ (pos wid : Byte) (s t : State), exec (.add pos wid) s = .next t →
    (t.rspStatus = .outOfBounds ↔ pos.toNat > s.numbits.toNat ∨ pos.toNat + wid.toNat > s.numbits.toNat)) ∧
  (∀ (pos wid dsize : Byte) (dat : Word) (s t : State), exec (.insert pos wid dsize dat) s = .next t →
    (t.rspStatus = .outOfBounds ↔ pos.toNat > s.numbits.toNat ∨ pos.toNat + wid.toNat > s.numbits.toNat))

/-- R202: ADD of a field within bounds answers `WOULD_OVERLAP` exactly when a field is registered at its position or, with
`STRICT_OVERLAP = 1`, when its range shares a bit position with a registered field's. No other command answers it. -/
def Obligations.WouldOverlapExactly : Prop :=
  (∀ (pos wid : Byte) (s t : State), s.Inv → pos.toNat + wid.toNat ≤ s.numbits.toNat →
    exec (.add pos wid) s = .next t →
    (t.rspStatus = .wouldOverlap ↔ (s.entryAt pos.toNat).v = true ∨
      (s.cfg.strictOverlap = true ∧ ∃ q i, s.Covers q i ∧ pos.toNat ≤ i ∧ i < pos.toNat + wid.toNat))) ∧
  (∀ (hdr : Header) (cdata : Word) (s t : State), perform hdr cdata s = .next t → t.rspStatus = .wouldOverlap →
    hdr.toNat % 16 = 2)

/-- R203: INSERT of a field within bounds answers `DATA_TOO_LARGE` exactly when the type's size, in
the configured unit, exceeds the capacity, or the value check is on and the data does not fit in `width` bits; without
the value check the value never matters. -/
def Obligations.DataTooLargeExactly : Prop :=
  ∀ (pos wid dsize : Byte) (data : Word) (s t : State), s.cfg.Admitted →
    (Instr.insert pos wid dsize data).wellFormed s.cfg.W = true →
    pos.toNat + wid.toNat ≤ s.numbits.toNat → exec (.insert pos wid dsize data) s = .next t →
    (t.rspStatus = .dataTooLarge ↔
      (s.cfg.dtlUnit = .bytes ∧ dsize.toNat > s.numbits.toNat) ∨
      (s.cfg.dtlUnit = .bits ∧ 8 * dsize.toNat > s.numbits.toNat) ∨
      (s.cfg.valueCheck = true ∧ data.toNat ≥ 2 ^ wid.toNat))

/-- An INSERT at `pos = W`, where only a zero-width field fits, shifts every data bit out and leaves `STORAGE` as it is;
one of width `W` at 0 into a clear word can set every bit (41_field_write.md R145, corner cases; 93 I3). -/
def Obligations.InsertAtTheWordsEdges : Prop :=
  ∀ (s : State) (dsize : Byte) (data : Word), s.Inv → s.numbits.toNat = s.cfg.W → s.cfg.valueCheck = false →
    data.toNat < 2 ^ s.cfg.W → s.dtl dsize.toNat = false →
    (∃ t, exec (.insert (BitVec.ofNat 8 s.cfg.W) 0 dsize data) s = .next t ∧
      t.rspStatus = .ok ∧ t.storage = s.storage ∧ t.rspData = data) ∧
    (s.storage = 0 → ∃ t, exec (.insert 0 (BitVec.ofNat 8 s.cfg.W) dsize data) s = .next t ∧
      t.rspStatus = .ok ∧ t.storage = data)

/-! ## Field reads -/

/-- R171, R170: GET at a registered position answers the field's bits, and no other bit of `STORAGE`; at any other
position, every one above `W` included, it answers `ABSENT`. -/
def Obligations.GetReadsExactlyTheFieldsBits : Prop :=
  ∀ (pos : Byte) (s : State), s.cfg.Admitted → s.StorageFits →
    (pos.toNat ≤ s.cfg.W → (s.entryAt pos.toNat).v = true →
      ∃ v, exec (.get pos) s = .next { s with rspStatus := .ok, rspData := v } ∧
        v.toNat = (s.storage.toNat / 2 ^ pos.toNat) % 2 ^ (s.entryAt pos.toNat).w.toNat ∧
        ∀ i, v.getLsbD i =
          (decide (i < (s.entryAt pos.toNat).w.toNat) && s.storage.getLsbD (pos.toNat + i))) ∧
    (pos.toNat > s.cfg.W ∨ (s.entryAt pos.toNat).v = false →
      exec (.get pos) s = .next { s with rspStatus := .absent, rspData := 0 })

/-- R172: GET_AS answers the value GET reads when the selected row of `ACCEPT` accepts it, and
`TRY_FROM_ERROR` with data 0 both where it does not and where no field is registered. -/
def Obligations.GetAsAnswersAcceptedValuesOnly : Prop :=
  ∀ (pos : Byte) (tsel : BitVec 4) (s : State), s.cfg.Admitted → s.StorageFits →
    (pos.toNat ≤ s.cfg.W → (s.entryAt pos.toNat).v = true →
      ∃ v : Word, v.toNat = (s.storage.toNat / 2 ^ pos.toNat) % 2 ^ (s.entryAt pos.toNat).w.toNat ∧
        exec (.get pos) s = .next { s with rspStatus := .ok, rspData := v } ∧
        (typeAccepts s.cfg tsel v = true →
          exec (.getAs pos tsel) s = .next { s with rspStatus := .ok, rspData := v }) ∧
        (typeAccepts s.cfg tsel v = false →
          exec (.getAs pos tsel) s = .next { s with rspStatus := .tryFromError, rspData := 0 })) ∧
    (pos.toNat > s.cfg.W ∨ (s.entryAt pos.toNat).v = false →
      exec (.getAs pos tsel) s = .next { s with rspStatus := .tryFromError, rspData := 0 })

/-- R174: GET_RAW answers the whole of `STORAGE` verbatim, and FROM of the answered word reproduces `STORAGE` with
`NUMBITS = W` and no field registered. -/
def Obligations.GetRawExportsAndFromReimports : Prop :=
  ∀ s : State, s.Inv →
    ∃ t, exec .getRaw s = .next t ∧ t = { s with rspStatus := .ok, rspData := s.storage } ∧
      ∃ u, exec (.fromRaw t.rspData) t = .next u ∧ u.storage = s.storage ∧ u.numbits.toNat = s.cfg.W ∧
        ∀ q, u.entryAt q = ⟨false, 0⟩

/-- R176: no read returns more bits than the field's registered width. -/
def Obligations.ReadsStayWithinRegisteredWidth : Prop :=
  ∀ (i : Instr) (pos : Byte) (s t : State), (i = .get pos ∨ ∃ tsel, i = .getAs pos tsel) →
    exec i s = .next t → t.rspData.toNat < 2 ^ (s.entryAt pos.toNat).w.toNat

/-- R204: GET_AS answers `TRY_FROM_ERROR` exactly when no field is registered at the position or the target type does
not accept the value GET reads there. -/
def Obligations.TryFromErrorExactly : Prop :=
  ∀ (pos : Byte) (tsel : BitVec 4) (s g t : State), s.Inv →
    exec (.get pos) s = .next g → exec (.getAs pos tsel) s = .next t →
    (t.rspStatus = .tryFromError ↔
      pos.toNat > s.cfg.W ∨ (s.entryAt pos.toNat).v = false ∨ typeAccepts s.cfg tsel g.rspData = false)

/-- Importing `STORAGE` (the word GET_RAW exports, R174, given to FROM directly) and registering every field again with ADD
reproduces every read (the scenario of 95_test_vectors.md L1-6, 70_reset_and_hazards.md R232), for every set of fields, on
a block with `STRICT_OVERLAP = 0`. Strict blocks are left out: there ADD refuses to register overlapping fields again. -/
def Obligations.ReimportReproducesEveryRead : Prop :=
  ∀ s : State, s.Inv → s.cfg.strictOverlap = false →
    ∃ t, performAll (.fromRaw s.storage :: s.addCommands) s = .next t ∧ t.storage = s.storage ∧
      (∀ p, t.entryAt p = s.entryAt p) ∧
      ∀ (pos : Byte) (tsel : BitVec 4) (i : Instr), i ∈ [.get pos, .getAs pos tsel, .getRaw] →
        ∃ g h, exec i s = .next g ∧ exec i t = .next h ∧ h.rspStatus = g.rspStatus ∧ h.rspData = g.rspData
end

