-- ==== Sys2Proof/Laws/Decode.lean ====
section
/-! SUPPORT. The header fields of a packed header (30_encoding.md R81, R82), one lemma per field. -/

namespace Sys2Proof

/-- A bit of a packed header: the bit of the field whose range it lies in (R81). -/
theorem getLsbD_packHeader (op tsel : BitVec 4) (pos wid dsize : Byte) (i : Nat) :
    (packHeader op tsel pos wid dsize).getLsbD i =
      if i < 4 then op.getLsbD i else if i < 8 then tsel.getLsbD (i - 4)
      else if i < 16 then pos.getLsbD (i - 8) else if i < 24 then wid.getLsbD (i - 16)
      else dsize.getLsbD (i - 24) := by
  by_cases h32 : i < 32
  · simp only [packHeader, BitVec.getLsbD_or, BitVec.getLsbD_shiftLeft, BitVec.getLsbD_setWidth]
    split_ifs with h4 h8 h16 h24
    · simp [h4, show i < 8 by omega, show i < 16 by omega, show i < 24 by omega, h32]
    · simp [h4, h8, show i < 16 by omega, show i < 24 by omega, h32, show i - 4 < 32 by omega,
        show 4 ≤ i by omega]
    · simp [h4, h8, h16, show i < 24 by omega, h32, show i - 8 < 32 by omega, show 4 ≤ i - 4 by omega,
        show 4 ≤ i by omega]
    · simp [h4, h8, h16, h24, h32, show i - 16 < 32 by omega, show 4 ≤ i by omega, show 4 ≤ i - 4 by omega,
        show 8 ≤ i - 8 by omega]
    · simp [h4, h8, h16, h24, h32, show i - 24 < 32 by omega, show 4 ≤ i by omega, show 4 ≤ i - 4 by omega,
        show 8 ≤ i - 8 by omega, show 8 ≤ i - 16 by omega]
  · rw [BitVec.getLsbD_of_ge _ _ (by omega)]
    simp [show ¬ i < 4 by omega, show ¬ i < 8 by omega, show ¬ i < 16 by omega, show ¬ i < 24 by omega,
      show 8 ≤ i - 24 by omega]

@[simp] theorem fieldOP_packHeader (op tsel : BitVec 4) (pos wid dsize : Byte) :
    fieldOP (packHeader op tsel pos wid dsize) = op := by
  ext i hi
  simp [fieldOP, getLsbD_packHeader, hi]

@[simp] theorem fieldTSEL_packHeader (op tsel : BitVec 4) (pos wid dsize : Byte) :
    fieldTSEL (packHeader op tsel pos wid dsize) = tsel := by
  ext i hi
  simp [fieldTSEL, getLsbD_packHeader, show 4 + i < 8 by omega, BitVec.getLsbD_eq_getElem hi]

@[simp] theorem fieldPOS_packHeader (op tsel : BitVec 4) (pos wid dsize : Byte) :
    fieldPOS (packHeader op tsel pos wid dsize) = pos := by
  ext i hi
  simp [fieldPOS, getLsbD_packHeader, show ¬ 8 + i < 4 by omega, show 8 + i < 16 by omega,
    BitVec.getLsbD_eq_getElem hi]

@[simp] theorem fieldWID_packHeader (op tsel : BitVec 4) (pos wid dsize : Byte) :
    fieldWID (packHeader op tsel pos wid dsize) = wid := by
  ext i hi
  simp [fieldWID, getLsbD_packHeader, show ¬ 16 + i < 4 by omega, show ¬ 16 + i < 8 by omega,
    show 16 + i < 24 by omega, BitVec.getLsbD_eq_getElem hi]

@[simp] theorem fieldDSIZE_packHeader (op tsel : BitVec 4) (pos wid dsize : Byte) :
    fieldDSIZE (packHeader op tsel pos wid dsize) = dsize := by
  ext i hi
  simp [fieldDSIZE, getLsbD_packHeader, show ¬ 24 + i < 4 by omega, show ¬ 24 + i < 8 by omega,
    show ¬ 24 + i < 16 by omega, BitVec.getLsbD_eq_getElem hi]

/-- A header is its five fields packed (R81). -/
theorem packHeader_fields (h : Header) :
    packHeader (fieldOP h) (fieldTSEL h) (fieldPOS h) (fieldWID h) (fieldDSIZE h) = h := by
  apply BitVec.eq_of_getLsbD_eq
  intro i hi
  rw [getLsbD_packHeader]
  simp only [fieldOP, fieldTSEL, fieldPOS, fieldWID, fieldDSIZE, BitVec.getLsbD_extractLsb']
  split_ifs with h4 h8 h16 h24
  · simp [h4]
  · simp [show i - 4 < 4 by omega, show 4 + (i - 4) = i by omega]
  · simp [show i - 8 < 8 by omega, show 8 + (i - 8) = i by omega]
  · simp [show i - 16 < 8 by omega, show 16 + (i - 16) = i by omega]
  · simp [show i - 24 < 8 by omega, show 24 + (i - 24) = i by omega]

/-- The opcode as a number: the header's low four bits (R83). -/
theorem fieldOP_toNat (h : Header) : (fieldOP h).toNat = h.toNat % 16 := by
  simp [fieldOP, BitVec.extractLsb'_toNat]

end Sys2Proof
end

