-- ==== Sys2Proof/Laws/State.lean ====
section
/-! SUPPORT. One lemma per field per update of State: later proofs rewrite with these and unfold no record update. -/

namespace Sys2Proof.Machine

/-! ## `writeStorage` -/

@[simp] theorem writeStorage_cfg (s : State) (v : Nat) :
    (s.writeStorage v).cfg = s.cfg := rfl
@[simp] theorem writeStorage_storage (s : State) (v : Nat) :
    (s.writeStorage v).storage = trunc s.cfg.W v := rfl
@[simp] theorem writeStorage_numbits (s : State) (v : Nat) :
    (s.writeStorage v).numbits = s.numbits := rfl
@[simp] theorem writeStorage_entry (s : State) (v : Nat) :
    (s.writeStorage v).entry = s.entry := rfl
@[simp] theorem writeStorage_rspStatus (s : State) (v : Nat) :
    (s.writeStorage v).rspStatus = s.rspStatus := rfl
@[simp] theorem writeStorage_rspData (s : State) (v : Nat) :
    (s.writeStorage v).rspData = s.rspData := rfl
@[simp] theorem writeStorage_phase (s : State) (v : Nat) :
    (s.writeStorage v).phase = s.phase := rfl
@[simp] theorem writeStorage_inputs (s : State) (v : Nat) :
    (s.writeStorage v).inputs = s.inputs := rfl

/-! ## `writeNumbits` -/

@[simp] theorem writeNumbits_cfg (s : State) (n : Nat) :
    (s.writeNumbits n).cfg = s.cfg := rfl
@[simp] theorem writeNumbits_storage (s : State) (n : Nat) :
    (s.writeNumbits n).storage = s.storage := rfl
@[simp] theorem writeNumbits_numbits (s : State) (n : Nat) :
    (s.writeNumbits n).numbits = BitVec.ofNat 8 n := rfl
@[simp] theorem writeNumbits_entry (s : State) (n : Nat) :
    (s.writeNumbits n).entry = s.entry := rfl
@[simp] theorem writeNumbits_rspStatus (s : State) (n : Nat) :
    (s.writeNumbits n).rspStatus = s.rspStatus := rfl
@[simp] theorem writeNumbits_rspData (s : State) (n : Nat) :
    (s.writeNumbits n).rspData = s.rspData := rfl
@[simp] theorem writeNumbits_phase (s : State) (n : Nat) :
    (s.writeNumbits n).phase = s.phase := rfl
@[simp] theorem writeNumbits_inputs (s : State) (n : Nat) :
    (s.writeNumbits n).inputs = s.inputs := rfl

/-! ## `clearEntries` -/

@[simp] theorem clearEntries_cfg (s : State) :
    s.clearEntries.cfg = s.cfg := rfl
@[simp] theorem clearEntries_storage (s : State) :
    s.clearEntries.storage = s.storage := rfl
@[simp] theorem clearEntries_numbits (s : State) :
    s.clearEntries.numbits = s.numbits := rfl
@[simp] theorem clearEntries_entry (s : State) :
    s.clearEntries.entry = List.replicate (s.cfg.W + 1) Entry.empty := rfl
@[simp] theorem clearEntries_rspStatus (s : State) :
    s.clearEntries.rspStatus = s.rspStatus := rfl
@[simp] theorem clearEntries_rspData (s : State) :
    s.clearEntries.rspData = s.rspData := rfl
@[simp] theorem clearEntries_phase (s : State) :
    s.clearEntries.phase = s.phase := rfl
@[simp] theorem clearEntries_inputs (s : State) :
    s.clearEntries.inputs = s.inputs := rfl

/-! ## `writeEntry` -/

@[simp] theorem writeEntry_cfg (s : State) (p w : Nat) :
    (s.writeEntry p w).cfg = s.cfg := rfl
@[simp] theorem writeEntry_storage (s : State) (p w : Nat) :
    (s.writeEntry p w).storage = s.storage := rfl
@[simp] theorem writeEntry_numbits (s : State) (p w : Nat) :
    (s.writeEntry p w).numbits = s.numbits := rfl
@[simp] theorem writeEntry_entry (s : State) (p w : Nat) :
    (s.writeEntry p w).entry = s.entry.set p ⟨true, BitVec.ofNat 8 w⟩ := rfl
@[simp] theorem writeEntry_rspStatus (s : State) (p w : Nat) :
    (s.writeEntry p w).rspStatus = s.rspStatus := rfl
@[simp] theorem writeEntry_rspData (s : State) (p w : Nat) :
    (s.writeEntry p w).rspData = s.rspData := rfl
@[simp] theorem writeEntry_phase (s : State) (p w : Nat) :
    (s.writeEntry p w).phase = s.phase := rfl
@[simp] theorem writeEntry_inputs (s : State) (p w : Nat) :
    (s.writeEntry p w).inputs = s.inputs := rfl

/-! ## `writeResponse` -/

@[simp] theorem writeResponse_cfg (s : State) (st : Status) (d : Word) :
    (s.writeResponse st d).cfg = s.cfg := rfl
@[simp] theorem writeResponse_storage (s : State) (st : Status) (d : Word) :
    (s.writeResponse st d).storage = s.storage := rfl
@[simp] theorem writeResponse_numbits (s : State) (st : Status) (d : Word) :
    (s.writeResponse st d).numbits = s.numbits := rfl
@[simp] theorem writeResponse_entry (s : State) (st : Status) (d : Word) :
    (s.writeResponse st d).entry = s.entry := rfl
@[simp] theorem writeResponse_rspStatus (s : State) (st : Status) (d : Word) :
    (s.writeResponse st d).rspStatus = st := rfl
@[simp] theorem writeResponse_rspData (s : State) (st : Status) (d : Word) :
    (s.writeResponse st d).rspData = trunc s.cfg.W d.toNat := rfl
@[simp] theorem writeResponse_phase (s : State) (st : Status) (d : Word) :
    (s.writeResponse st d).phase = s.phase := rfl
@[simp] theorem writeResponse_inputs (s : State) (st : Status) (d : Word) :
    (s.writeResponse st d).inputs = s.inputs := rfl

/-! ## `acceptEdge` -/

@[simp] theorem acceptEdge_cfg (s : State) :
    s.acceptEdge.cfg = s.cfg := rfl
@[simp] theorem acceptEdge_storage (s : State) :
    s.acceptEdge.storage = s.storage := rfl
@[simp] theorem acceptEdge_numbits (s : State) :
    s.acceptEdge.numbits = s.numbits := rfl
@[simp] theorem acceptEdge_entry (s : State) :
    s.acceptEdge.entry = s.entry := rfl
@[simp] theorem acceptEdge_rspStatus (s : State) :
    s.acceptEdge.rspStatus = s.rspStatus := rfl
@[simp] theorem acceptEdge_rspData (s : State) :
    s.acceptEdge.rspData = s.rspData := rfl
@[simp] theorem acceptEdge_phase (s : State) :
    s.acceptEdge.phase = Phase.afterAccept s.cfg.latency := rfl
@[simp] theorem acceptEdge_inputs (s : State) :
    s.acceptEdge.inputs = s.inputs.tail := rfl

/-! ## The reset state (R230) -/

@[simp] theorem resetOf_cfg (c : Config) (ins : List PortInput) :
    (State.resetOf c ins).cfg = c := rfl
@[simp] theorem resetOf_storage (c : Config) (ins : List PortInput) :
    (State.resetOf c ins).storage = 0 := rfl
@[simp] theorem resetOf_numbits (c : Config) (ins : List PortInput) :
    (State.resetOf c ins).numbits = BitVec.ofNat 8 c.W := rfl
@[simp] theorem resetOf_entry (c : Config) (ins : List PortInput) :
    (State.resetOf c ins).entry = List.replicate (c.W + 1) Entry.empty := rfl
@[simp] theorem resetOf_rspStatus (c : Config) (ins : List PortInput) :
    (State.resetOf c ins).rspStatus = .ok := rfl
@[simp] theorem resetOf_rspData (c : Config) (ins : List PortInput) :
    (State.resetOf c ins).rspData = 0 := rfl
@[simp] theorem resetOf_phase (c : Config) (ins : List PortInput) :
    (State.resetOf c ins).phase = .idle := rfl
@[simp] theorem resetOf_inputs (c : Config) (ins : List PortInput) :
    (State.resetOf c ins).inputs = ins := rfl

end Sys2Proof.Machine
end

