-- ==== Sys2Proof/Laws/Ops.lean ====
section
/-! SUPPORT. What each shared operation does, said once: truncation and the mask bit by bit, reads and writes of the field
table, the command ends, the validator's verdicts as inequalities. Proofs cite these instead of unfolding the operations. -/

namespace Sys2Proof.Machine

/-! ## Truncation, mask and extractor -/

theorem trunc_toNat {W : Nat} (hW : W ≤ maxW) (v : Nat) : (trunc W v).toNat = v % 2 ^ W := by
  have h1 : v % 2 ^ W < 2 ^ W := Nat.mod_lt _ (Nat.two_pow_pos W)
  have h2 : 2 ^ W ≤ 2 ^ 128 := Nat.pow_le_pow_right (by decide) hW
  simp only [trunc, BitVec.toNat_ofNat]
  exact Nat.mod_eq_of_lt (by omega)

theorem trunc_lt {W : Nat} (hW : W ≤ maxW) (v : Nat) : (trunc W v).toNat < 2 ^ W := by
  rw [trunc_toNat hW]; exact Nat.mod_lt _ (Nat.two_pow_pos W)

@[simp] theorem trunc_zero (W : Nat) : trunc W 0 = 0 := by simp [trunc]

/-- A word that fits in `W` bits is not changed by truncation. -/
theorem trunc_of_lt {W : Nat} {d : Word} (h : d.toNat < 2 ^ W) : trunc W d.toNat = d := by
  simp [trunc, Nat.mod_eq_of_lt h]

theorem trunc_trunc {W : Nat} (hW : W ≤ maxW) (v : Nat) : trunc W (trunc W v).toNat = trunc W v :=
  trunc_of_lt (trunc_lt hW v)

/-- The bits of a truncated value: those of the value below `W`. -/
theorem getLsbD_trunc {W : Nat} (hW : W ≤ maxW) (v i : Nat) :
    (trunc W v).getLsbD i = (decide (i < W) && v.testBit i) := by
  rw [← BitVec.testBit_toNat, trunc_toNat hW, Nat.testBit_mod_two_pow]

/-- A word that fits in `W` bits has no bit at or above `W`. -/
theorem getLsbD_of_fits {W i : Nat} {d : Word} (h : d.toNat < 2 ^ W) (hi : W ≤ i) : d.getLsbD i = false := by
  rw [← BitVec.testBit_toNat]
  exact Nat.testBit_lt_two_pow (lt_of_lt_of_le h (Nat.pow_le_pow_right (by decide) hi))

/-- The mask has ones exactly at `[pos, pos+width)` below `W` (R19). -/
theorem getLsbD_mask {W : Nat} (hW : W ≤ maxW) (pos width i : Nat) :
    (mask W pos width).getLsbD i = decide (pos ≤ i ∧ i < pos + width ∧ i < W) := by
  rw [mask, getLsbD_trunc hW, Nat.testBit_shiftLeft, Nat.testBit_two_pow_sub_one, Bool.eq_iff_iff]
  simp only [Bool.and_eq_true, decide_eq_true_eq]
  omega

/-- `~a` at width `W`, bit by bit (R18). -/
theorem getLsbD_notW {W : Nat} (hW : W ≤ maxW) {a : Word} (ha : a.toNat < 2 ^ W) (i : Nat) :
    (notW W a).getLsbD i = (decide (i < W) && !a.getLsbD i) := by
  rw [notW, getLsbD_trunc hW, ← BitVec.testBit_toNat a]
  have h : 2 ^ W - 1 - a.toNat = 2 ^ W - (a.toNat + 1) := by omega
  rw [h, Nat.testBit_two_pow_sub_succ ha]
  cases decide (i < W) <;> simp

/-- The extracted field, bit by bit: the bits `[p, p+w)` of `STORAGE` and no other (R170). -/
theorem getLsbD_extract {s : State} (hW : s.cfg.W ≤ maxW) (p i : Nat) :
    (s.extract p).getLsbD i =
      (s.storage.getLsbD (p + i) && decide (i < (s.entryAt p).w.toNat ∧ p + i < s.cfg.W)) := by
  rw [State.extract, BitVec.getLsbD_ushiftRight, BitVec.getLsbD_and, getLsbD_mask hW]
  congr 1
  rw [Bool.eq_iff_iff]
  simp only [decide_eq_true_eq]
  omega

/-! ## The field table -/

/-- Reading a slot after writing one that exists: the slot written, or the old one (R20). -/
theorem entryAt_writeEntry {s : State} {p : Nat} (hp : p < s.entry.length) (w q : Nat) :
    (s.writeEntry p w).entryAt q = if q = p then ⟨true, BitVec.ofNat 8 w⟩ else s.entryAt q := by
  simp only [State.entryAt, writeEntry_entry, List.getD_eq_getElem?_getD, List.getElem?_set]
  split <;> rename_i h
  · subst h; simp
  · simp [show q ≠ p from fun e => h e.symm]

/-- After `clearEntries` every slot is invalid with width 0 (R120, R122). -/
@[simp] theorem getD_replicate_empty (n p : Nat) :
    (List.replicate n Entry.empty).getD p Entry.empty = Entry.empty := by
  by_cases h : p < n <;> simp [List.getD_eq_getElem?_getD, h]

@[simp] theorem entryAt_clearEntries (s : State) (p : Nat) : s.clearEntries.entryAt p = Entry.empty := by
  simp [State.entryAt]

@[simp] theorem entryAt_resetOf (c : Config) (ins : List PortInput) (p : Nat) :
    (State.resetOf c ins).entryAt p = Entry.empty := by
  simp [State.entryAt]

/-! `entryAt` depends on the table alone. -/

@[simp] theorem entryAt_writeStorage (s : State) (v p : Nat) : (s.writeStorage v).entryAt p = s.entryAt p := rfl

@[simp] theorem entryAt_writeNumbits (s : State) (n p : Nat) : (s.writeNumbits n).entryAt p = s.entryAt p := rfl

@[simp] theorem entryAt_writeResponse (s : State) (st : Status) (d : Word) (p : Nat) :
    (s.writeResponse st d).entryAt p = s.entryAt p := rfl

@[simp] theorem entryAt_acceptEdge (s : State) (p : Nat) : s.acceptEdge.entryAt p = s.entryAt p := rfl

/-- A position with no slot reads as an invalid one. -/
theorem entryAt_of_length_le {s : State} {p : Nat} (h : s.entry.length ≤ p) : s.entryAt p = Entry.empty := by
  simp [State.entryAt, List.getD_eq_getElem?_getD, List.getElem?_eq_none h]

theorem registered_iff (s : State) (p : Nat) :
    s.registered p = true ↔ p ≤ s.cfg.W ∧ (s.entryAt p).v = true := by
  simp [State.registered]

/-! ## Command ends -/

/-- `respond` answers one next state, which differs from the given one in the response registers only (R21, R86). -/
theorem respond_eq_next (st : Status) (d : Word) (s : State) :
    respond st d s = .next { s with rspStatus := st, rspData := trunc s.cfg.W d.toNat } := rfl

/-- `raise` answers one next state: the error's status, data 0, nothing else changed (R21, R207). -/
theorem raise_eq_next (e : Status) (s : State) : raise e s = .next { s with rspStatus := e, rspData := 0 } := by
  simp [raise, respond_eq_next]

theorem illegalCommand_eq_next (s : State) :
    illegalCommand s = .next { s with rspStatus := .illegalCommand, rspData := 0 } := raise_eq_next _ s

/-! ## The validator's verdicts -/

/-- The bounds check: past the capacity, exactly (R140). -/
theorem oob_iff (s : State) (pos width : Nat) : s.oob pos width = true ↔ s.numbits.toNat < pos + width := by
  simp only [State.oob, Bool.or_eq_true, decide_eq_true_eq]; omega

/-- The type-size check (R142). -/
theorem dtl_iff (s : State) (dsize : Nat) :
    s.dtl dsize = true ↔
      s.numbits.toNat < (if s.cfg.dtlUnit = .bytes then dsize else 8 * dsize) := by
  unfold State.dtl
  cases s.cfg.dtlUnit <;> simp

/-- The value-range check (R143). -/
theorem val_iff (s : State) (data : Word) (width : Nat) :
    s.val data width = true ↔ s.cfg.valueCheck = true ∧ 2 ^ width ≤ data.toNat := by
  simp [State.val]

/-- Two bit ranges intersect exactly when some position lies in both: the interval test of R141 is the Glossary's
overlap. -/
theorem intersects_iff (s : State) (pos width p : Nat) :
    s.intersects pos width p = true ↔
      p ≠ pos ∧ ∃ i, s.Covers p i ∧ pos ≤ i ∧ i < pos + width := by
  simp only [State.intersects, Bool.and_eq_true, decide_eq_true_eq, State.Covers]
  constructor
  · rintro ⟨⟨⟨⟨⟨h1, h2⟩, h3⟩, h4⟩, h5⟩, h6⟩
    exact ⟨h1, max pos p, ⟨h2, by omega, by omega⟩, by omega, by omega⟩
  · rintro ⟨h1, i, ⟨h2, h3, h4⟩, h5, h6⟩
    exact ⟨⟨⟨⟨⟨h1, h2⟩, by omega⟩, by omega⟩, by omega⟩, by omega⟩

/-- The overlap check of ADD (R141). -/
theorem ovl_iff (s : State) (pos width : Nat) :
    s.ovl pos width = true ↔ (s.entryAt pos).v = true ∨ (s.cfg.strictOverlap = true ∧
      ∃ p i, p ≠ pos ∧ p ≤ s.cfg.W ∧ s.Covers p i ∧ pos ≤ i ∧ i < pos + width) := by
  simp only [State.ovl, Bool.or_eq_true, Bool.and_eq_true, List.any_eq_true, List.mem_range, intersects_iff]
  constructor
  · rintro (h | ⟨h, p, hp, hne, i, hc, h1, h2⟩)
    · exact .inl h
    · exact .inr ⟨h, p, i, hne, by omega, hc, h1, h2⟩
  · rintro (h | ⟨h, p, i, hne, hp, hc, h1, h2⟩)
    · exact .inl h
    · exact .inr ⟨h, p, by omega, hne, i, hc, h1, h2⟩

/-- The word INSERT stores, bit by bit: the old bits, those of the field cleared first under `INSERT_CLEAR`, ORed with the
data shifted to `pos` (R145, R147, R148). -/
theorem getLsbD_insertedWord {s : State} (hW : s.cfg.W ≤ maxW) (hs : s.StorageFits) (pos width : Nat) (data : Word)
    (i : Nat) :
    (s.insertedWord pos width data).getLsbD i =
      ((s.storage.getLsbD i && !(s.cfg.insertClear && decide (pos ≤ i ∧ i < pos + width))) ||
        (decide (i < s.cfg.W) && (decide (pos ≤ i) && data.getLsbD (i - pos)))) := by
  have hm : (mask s.cfg.W pos width).toNat < 2 ^ s.cfg.W := trunc_lt hW _
  rw [State.insertedWord, BitVec.getLsbD_or, getLsbD_trunc hW, Nat.testBit_shiftLeft, BitVec.testBit_toNat]
  by_cases hi : i < s.cfg.W
  · cases s.cfg.insertClear
    · simp
    · simp [BitVec.getLsbD_and, getLsbD_notW hW hm, getLsbD_mask hW, hi]
  · have h0 : s.storage.getLsbD i = false := getLsbD_of_fits hs (by omega)
    cases s.cfg.insertClear <;> simp [hi, h0]

end Sys2Proof.Machine
end

