-- ==== Sys2Proof/Laws/Exec.lean ====
section
/-! SUPPORT. What each command can answer, said once: its cases with their conditions and the state of each. Proofs about a
command start from its case lemma and unfold no meaning. -/

namespace Sys2Proof.Machine

/-! ## Every command, case by case -/

theorem execNew_cases (n : Byte) (s : State) :
    (s.cfg.W < n.toNat ∧ exec (.new n) s = .next (s.writeResponse .outOfBounds 0)) ∨
    (n.toNat ≤ s.cfg.W ∧ exec (.new n) s = .next ((((s.writeStorage 0).writeNumbits
      (if s.cfg.capMode = .widen then s.cfg.W else n.toNat)).clearEntries).writeResponse .ok 0)) := by
  by_cases h : n.toNat > s.cfg.W
  · exact .inl ⟨h, by simp [exec, execNew, byteOperand, h, raise, respond]⟩
  · refine .inr ⟨by omega, ?_⟩
    cases hc : s.cfg.capMode <;> simp [exec, execNew, byteOperand, h, respond, hc]

theorem execFrom_eq (raw : Word) (s : State) :
    exec (.fromRaw raw) s = .next ((((s.writeStorage (trunc s.cfg.W raw.toNat).toNat).writeNumbits
      s.cfg.W).clearEntries).writeResponse .ok 0) := rfl

theorem execAdd_cases (pos wid : Byte) (s : State) :
    (s.oob pos.toNat wid.toNat = true ∧ exec (.add pos wid) s = .next (s.writeResponse .outOfBounds 0)) ∨
    (s.oob pos.toNat wid.toNat = false ∧ s.ovl pos.toNat wid.toNat = true ∧
      exec (.add pos wid) s = .next (s.writeResponse .wouldOverlap 0)) ∨
    (s.oob pos.toNat wid.toNat = false ∧ s.ovl pos.toNat wid.toNat = false ∧
      exec (.add pos wid) s = .next ((s.writeEntry pos.toNat wid.toNat).writeResponse .ok 0)) := by
  cases h1 : s.oob pos.toNat wid.toNat <;> cases h2 : s.ovl pos.toNat wid.toNat <;>
    simp [exec, execAdd, byteOperand, raise, respond, h1, h2]

theorem execInsert_cases (pos wid dsize : Byte) (dat : Word) (s : State) :
    (s.oob pos.toNat wid.toNat = true ∧
      exec (.insert pos wid dsize dat) s = .next (s.writeResponse .outOfBounds 0)) ∨
    (s.oob pos.toNat wid.toNat = false ∧
      (s.dtl dsize.toNat = true ∨ s.val (trunc s.cfg.W dat.toNat) wid.toNat = true) ∧
      exec (.insert pos wid dsize dat) s = .next (s.writeResponse .dataTooLarge 0)) ∨
    (s.oob pos.toNat wid.toNat = false ∧ s.dtl dsize.toNat = false ∧
      s.val (trunc s.cfg.W dat.toNat) wid.toNat = false ∧
      exec (.insert pos wid dsize dat) s = .next (((s.writeStorage (s.insertedWord pos.toNat wid.toNat
        (trunc s.cfg.W dat.toNat)).toNat).writeEntry pos.toNat wid.toNat).writeResponse .ok
        (trunc s.cfg.W dat.toNat))) := by
  cases h1 : s.oob pos.toNat wid.toNat <;> cases h2 : s.dtl dsize.toNat <;>
    cases h3 : s.val (trunc s.cfg.W dat.toNat) wid.toNat <;>
    simp [exec, execInsert, byteOperand, dataOperand, raise, respond, h1, h2, h3]

theorem execGet_cases (pos : Byte) (s : State) :
    (s.registered pos.toNat = true ∧ exec (.get pos) s = .next (s.writeResponse .ok (s.extract pos.toNat))) ∨
    (s.registered pos.toNat = false ∧ exec (.get pos) s = .next (s.writeResponse .absent 0)) := by
  cases h : s.registered pos.toNat <;> simp [exec, execGet, byteOperand, respond, h]

theorem execGetAs_cases (pos : Byte) (tsel : BitVec 4) (s : State) :
    (s.registered pos.toNat = true ∧ typeAccepts s.cfg tsel (s.extract pos.toNat) = true ∧
      exec (.getAs pos tsel) s = .next (s.writeResponse .ok (s.extract pos.toNat))) ∨
    ((s.registered pos.toNat = false ∨ typeAccepts s.cfg tsel (s.extract pos.toNat) = false) ∧
      exec (.getAs pos tsel) s = .next (s.writeResponse .tryFromError 0)) := by
  cases h : s.registered pos.toNat <;> cases h2 : typeAccepts s.cfg tsel (s.extract pos.toNat) <;>
    simp [exec, execGetAs, byteOperand, raise, respond, h, h2]

theorem execGetRaw_eq (s : State) : exec .getRaw s = .next (s.writeResponse .ok s.storage) := rfl

/-! ## What every command has in common -/

/-- A command neither reads nor writes the ports' side of the state. -/
theorem exec_withPorts {i : Instr} {s t : State} (h : exec i s = .next t) (ph : Phase) (ins : List PortInput) :
    exec i { s with phase := ph, inputs := ins } = .next { t with phase := ph, inputs := ins } := by
  cases i with
  | new n =>
    by_cases hc : n.toNat > s.cfg.W <;> simp only [exec, execNew, byteOperand, hc, if_true, if_false] at h ⊢ <;>
      (cases h; rfl)
  | fromRaw raw => cases h; rfl
  | add pos wid =>
    have e1 : State.oob { s with phase := ph, inputs := ins } pos.toNat wid.toNat = s.oob pos.toNat wid.toNat := rfl
    have e2 : State.ovl { s with phase := ph, inputs := ins } pos.toNat wid.toNat = s.ovl pos.toNat wid.toNat := rfl
    obtain ⟨c, e⟩ | ⟨c, c', e⟩ | ⟨c, c', e⟩ := execAdd_cases pos wid s <;> (rw [e] at h; cases h) <;>
      obtain ⟨d, e⟩ | ⟨d, d', e⟩ | ⟨d, d', e⟩ := execAdd_cases pos wid { s with phase := ph, inputs := ins } <;>
      first | (rw [e]; rfl) | (exfalso; simp_all)
  | insert pos wid dsize dat =>
    have e1 : State.oob { s with phase := ph, inputs := ins } pos.toNat wid.toNat = s.oob pos.toNat wid.toNat := rfl
    have e2 : State.dtl { s with phase := ph, inputs := ins } dsize.toNat = s.dtl dsize.toNat := rfl
    have e3 (d : Word) : State.val { s with phase := ph, inputs := ins } d wid.toNat = s.val d wid.toNat := rfl
    obtain ⟨c, e⟩ | ⟨c, c', e⟩ | ⟨c, c', c'', e⟩ := execInsert_cases pos wid dsize dat s <;> (rw [e] at h; cases h) <;>
      obtain ⟨d, e⟩ | ⟨d, d', e⟩ | ⟨d, d', d'', e⟩ :=
        execInsert_cases pos wid dsize dat { s with phase := ph, inputs := ins } <;>
      first | (rw [e]; rfl) | (exfalso; simp_all)
  | get pos =>
    have e1 : State.registered { s with phase := ph, inputs := ins } pos.toNat = s.registered pos.toNat := rfl
    obtain ⟨c, e⟩ | ⟨c, e⟩ := execGet_cases pos s <;> (rw [e] at h; cases h) <;>
      obtain ⟨d, e⟩ | ⟨d, e⟩ := execGet_cases pos { s with phase := ph, inputs := ins } <;>
      first | (rw [e]; rfl) | (exfalso; simp_all)
  | getAs pos tsel =>
    have e1 : State.registered { s with phase := ph, inputs := ins } pos.toNat = s.registered pos.toNat := rfl
    have e2 : State.extract { s with phase := ph, inputs := ins } pos.toNat = s.extract pos.toNat := rfl
    obtain ⟨c, c', e⟩ | ⟨c, e⟩ := execGetAs_cases pos tsel s <;> (rw [e] at h; cases h) <;>
      obtain ⟨d, d', e⟩ | ⟨d, e⟩ := execGetAs_cases pos tsel { s with phase := ph, inputs := ins } <;>
      first | (rw [e]; rfl) | (exfalso; simp_all)
  | getRaw => cases h; rfl

/-- The frame every command shares: the configuration and the ports' side of the state are as before. -/
theorem exec_ports_frame {i : Instr} {s t : State} (h : exec i s = .next t) :
    t.cfg = s.cfg ∧ t.phase = s.phase ∧ t.inputs = s.inputs := by
  cases i with
  | new n =>
    obtain ⟨-, e⟩ | ⟨-, e⟩ := execNew_cases n s <;> (rw [e] at h; cases h; simp)
  | fromRaw raw => rw [execFrom_eq] at h; cases h; simp
  | add pos wid =>
    obtain ⟨-, e⟩ | ⟨-, -, e⟩ | ⟨-, -, e⟩ := execAdd_cases pos wid s <;> (rw [e] at h; cases h; simp)
  | insert pos wid dsize dat =>
    obtain ⟨-, e⟩ | ⟨-, -, e⟩ | ⟨-, -, -, e⟩ := execInsert_cases pos wid dsize dat s <;>
      (rw [e] at h; cases h; simp)
  | get pos => obtain ⟨-, e⟩ | ⟨-, e⟩ := execGet_cases pos s <;> (rw [e] at h; cases h; simp)
  | getAs pos tsel =>
    obtain ⟨-, -, e⟩ | ⟨-, e⟩ := execGetAs_cases pos tsel s <;> (rw [e] at h; cases h; simp)
  | getRaw => rw [execGetRaw_eq] at h; cases h; simp

/-- What performing a command can answer: the decoded command's answer, or that to a reserved opcode (R84). -/
theorem perform_cases (hdr : Header) (cdata : Word) (s : State) :
    (∃ i, decode hdr cdata = .command i ∧ perform hdr cdata s = exec i s) ∨
    (∃ e, decode hdr cdata = .reject e ∧
      perform hdr cdata s = .next { s with rspStatus := .illegalCommand, rspData := 0 }) := by
  cases h : decode hdr cdata with
  | command i => exact .inl ⟨i, rfl, by simp [perform, h]⟩
  | reject e => exact .inr ⟨e, rfl, by simp [perform, h, illegalCommand_eq_next]⟩

end Sys2Proof.Machine
end

