-- ==== Sys2Proof/Laws/PerInstr.lean ====
section
/-! SUPPORT. Statements for all commands, one lemma per constructor of `Instr`.

`EncodedHeader`: a command's header carries its own opcode (30_encoding.md R83), every header bit the command does not
use is 0 (R89), and a command that uses no `CDATA` carries 0 there (R85). -/

namespace Sys2Proof.Laws.EncodedHeader

/-- The header of `i` holds the opcode of `i` and nothing outside the bits `i` uses. -/
def Statement (i : Instr) : Prop :=
  fieldOP (encode i).1 = opcode i ∧ (encode i).1 &&& usedBits (opcode i) = (encode i).1 ∧
    (usesData (opcode i) = false → (encode i).2 = 0)

/-- A packed header lies within a mask that covers its non-zero bits. -/
theorem packHeader_and_eq {op tsel : BitVec 4} {pos wid dsize : Byte} {used : Header}
    (h : ∀ i < 32, (packHeader op tsel pos wid dsize).getLsbD i = true → used.getLsbD i = true) :
    packHeader op tsel pos wid dsize &&& used = packHeader op tsel pos wid dsize := by
  apply BitVec.eq_of_getLsbD_eq
  intro i hi
  have := h i hi
  rw [BitVec.getLsbD_and]
  cases hp : (packHeader op tsel pos wid dsize).getLsbD i <;> simp_all

theorem new (nbits : Byte) : Statement (.new nbits) := by
  refine ⟨fieldOP_packHeader .., packHeader_and_eq fun i hi h => ?_, fun _ => rfl⟩
  rw [getLsbD_packHeader] at h
  interval_cases i <;> simp [opcode, usedBits] at h ⊢

theorem fromRaw (raw : Word) : Statement (.fromRaw raw) := by
  refine ⟨fieldOP_packHeader .., packHeader_and_eq fun i hi h => ?_, fun h => by cases h⟩
  rw [getLsbD_packHeader] at h
  interval_cases i <;> simp [opcode, usedBits] at h ⊢

theorem add (pos wid : Byte) : Statement (.add pos wid) := by
  refine ⟨fieldOP_packHeader .., packHeader_and_eq fun i hi h => ?_, fun _ => rfl⟩
  rw [getLsbD_packHeader] at h
  interval_cases i <;> simp [opcode, usedBits] at h ⊢

theorem insert (pos wid dsize : Byte) (dat : Word) : Statement (.insert pos wid dsize dat) := by
  refine ⟨fieldOP_packHeader .., packHeader_and_eq fun i hi h => ?_, fun h => by cases h⟩
  rw [getLsbD_packHeader] at h
  interval_cases i <;> simp [opcode, usedBits] at h ⊢

theorem get (pos : Byte) : Statement (.get pos) := by
  refine ⟨fieldOP_packHeader .., packHeader_and_eq fun i hi h => ?_, fun _ => rfl⟩
  rw [getLsbD_packHeader] at h
  interval_cases i <;> simp [opcode, usedBits] at h ⊢

theorem getAs (pos : Byte) (tsel : BitVec 4) : Statement (.getAs pos tsel) := by
  refine ⟨fieldOP_packHeader .., packHeader_and_eq fun i hi h => ?_, fun _ => rfl⟩
  rw [getLsbD_packHeader] at h
  interval_cases i <;> simp [opcode, usedBits] at h ⊢

theorem getRaw : Statement .getRaw := by
  refine ⟨fieldOP_packHeader .., packHeader_and_eq fun i hi h => ?_, fun _ => rfl⟩
  rw [getLsbD_packHeader] at h
  interval_cases i <;> simp [opcode, usedBits] at h ⊢

end Sys2Proof.Laws.EncodedHeader
end

