-- ==== Sys2Proof/Laws/Port.lean ====
section
/-! SUPPORT. What one edge can do, said once: when a command is accepted, and the state every other edge gives. -/

namespace Sys2Proof.Machine

/-- An edge accepts a command exactly when the block is ready and one is valid (R80). -/
theorem fetch_eq_some_iff (s : State) (hdr : Header) (cdata : Word) :
    s.fetch = some (hdr, cdata) ↔
      s.pins.rst = false ∧ s.phase = .idle ∧ s.pins.cmdValid = true ∧ hdr = s.pins.cmdHdr ∧
        cdata = trunc s.cfg.W s.pins.cmdData.toNat := by
  unfold State.fetch State.cmdReady
  cases hp : s.phase <;> cases hr : s.pins.rst <;> cases hv : s.pins.cmdValid <;>
    simp [Phase.isIdle, eq_comm]

theorem fetch_eq_none_of_busy {s : State} (h : s.phase ≠ .idle) : s.fetch = none := by
  unfold State.fetch State.cmdReady
  cases hp : s.phase <;> simp_all [Phase.isIdle]

theorem fetch_eq_none_of_rst {s : State} (h : s.pins.rst = true) : s.fetch = none := by
  simp [State.fetch, State.cmdReady, h]

/-- The two kinds of edge of a block that can be built. -/
theorem step_cases {s t : State} (h : step s = .next t) :
    s.cfg.Admitted ∧
    ((∃ hdr cdata, s.fetch = some (hdr, cdata) ∧ perform hdr cdata s.acceptEdge = .next t) ∨
      (s.fetch = none ∧ t = s.otherEdge)) := by
  unfold step at h
  split at h
  · refine ⟨‹_›, ?_⟩
    cases hf : s.fetch with
    | none => rw [hf] at h; cases h; exact .inr ⟨rfl, rfl⟩
    | some c => rw [hf] at h; exact .inl ⟨c.1, c.2, rfl, h⟩
  · cases h

theorem step_of_fetch {s : State} (ha : s.cfg.Admitted) {hdr : Header} {cdata : Word}
    (hf : s.fetch = some (hdr, cdata)) : step s = perform hdr cdata s.acceptEdge := by
  simp only [step, if_pos ha, hf]

theorem step_of_no_fetch {s : State} (ha : s.cfg.Admitted) (hf : s.fetch = none) :
    step s = .next s.otherEdge := by
  simp only [step, if_pos ha, hf]

/-- A reset edge gives the reset state of the same block (R231). -/
theorem otherEdge_of_rst {s : State} (h : s.pins.rst = true) :
    s.otherEdge = State.resetOf s.cfg s.inputs.tail := by simp [State.otherEdge, h]

/-- Any other edge without a command moves the handshake on and touches no register (R80). -/
theorem otherEdge_of_no_rst {s : State} (h : s.pins.rst = false) :
    s.otherEdge = { s with phase := s.phase.afterEdge s.pins.rspReady, inputs := s.inputs.tail } := by
  simp [State.otherEdge, h]

@[simp] theorem otherEdge_cfg (s : State) : s.otherEdge.cfg = s.cfg := by
  cases h : s.pins.rst
  · rw [otherEdge_of_no_rst h]
  · rw [otherEdge_of_rst h, resetOf_cfg]

@[simp] theorem otherEdge_inputs (s : State) : s.otherEdge.inputs = s.inputs.tail := by
  cases h : s.pins.rst
  · rw [otherEdge_of_no_rst h]
  · rw [otherEdge_of_rst h, resetOf_inputs]

/-! ## The phases -/

theorem afterAccept_within {latency : Nat} : (Phase.afterAccept latency).within latency = true := by
  unfold Phase.afterAccept
  split
  · rfl
  · simp only [Phase.within, decide_eq_true_eq]; omega

theorem afterEdge_within {latency : Nat} {p : Phase} (h : p.within latency = true) (take : Bool) :
    (p.afterEdge take).within latency = true := by
  cases p with
  | idle => rfl
  | computing left =>
    simp only [Phase.within, decide_eq_true_eq] at h
    simp only [Phase.afterEdge]
    split
    · rfl
    · simp only [Phase.within, decide_eq_true_eq]; omega
  | responding => cases take <;> rfl

end Sys2Proof.Machine
end

