-- ==== Sys2Proof/Tests/Slice0.lean ====
section
/-! SUPPORT. Tests: what the syntax checks refuse, words written out from the spec's encoding, single steps with the
expected result taken from 95_test_vectors.md, and for every obligation with hypotheses a witness that meets them. -/

namespace Sys2Proof.Tests

open Sys2Proof.Machine

/-! ## Helpers -/

/-- A block of configuration `c` with this word, capacity and registered fields `(position, width)`. -/
def block (c : Config) (storage : Word) (numbits : Byte) (fields : List (Nat × Byte)) : State :=
  { State.resetOf c [] with
    storage := storage, numbits := numbits
    entry := fields.foldl (fun e f => e.set f.1 ⟨true, f.2⟩) (State.resetOf c []).entry }

/-- `COMPAT` with one parameter changed, as 95_test_vectors.md names its configurations. -/
def preserve : Config := { Config.compat with capMode := .preserve }
def strict : Config := { Config.compat with strictOverlap := true }
def clearing : Config := { Config.compat with insertClear := true }

/-- The test configuration `TC` of 95_test_vectors.md: rows 8, 9 and 10 accept exactly 1, 2 and 1. -/
def tc : Config :=
  { Config.compat with
    accept := ((Config.compat.accept.set 8 (.oneOf [1])).set 9 (.oneOf [2])).set 10 (.oneOf [1]) }

/-- A small block, `W = 8`, for the witnesses. -/
def small : Config := { Config.compat with W := 8 }
def smallStrict : Config := { small with strictOverlap := true }

/-- One edge's pins: a command, the response taken, nothing, a reset. -/
def send (hdr : Header) (data : Word) : PortInput := ⟨false, true, hdr, data, false⟩
def take : PortInput := ⟨false, false, 0, 0, true⟩
def wait : PortInput := ⟨false, false, 0, 0, false⟩
def resetPin : PortInput := ⟨true, false, 0, 0, false⟩

/-- What a step leaves: `STORAGE`, `NUMBITS`, the registered fields, the status code and the response data. -/
def left : Result → Option (Word × Byte × List (Nat × Byte) × BitVec 3 × Word)
  | .next t => some (t.storage, t.numbits,
      ((List.range (t.cfg.W + 1)).filter fun p => (t.entryAt p).v).map fun p => (p, (t.entryAt p).w),
      t.rspStatus.code, t.rspData)
  | .fault _ => none
  | .refused _ => none

/-! ## WellFormed and Config refuse what is ill-formed -/

theorem test_from_data_must_fit : (Instr.fromRaw 0x100).wellFormed 8 = false := by decide
theorem test_insert_data_must_fit : (Instr.insert 0 8 1 0x100).wellFormed 8 = false := by decide
theorem test_widest_data_fits : (Instr.insert 255 255 255 0xFF).wellFormed 8 = true := by decide
theorem test_config_width_zero_refused : ¬ Config.Admitted { Config.compat with W := 0 } := by decide
theorem test_config_width_129_refused : ¬ Config.Admitted { Config.compat with W := 129 } := by decide
theorem test_config_latency_zero_refused : ¬ Config.Admitted { Config.compat with latency := 0 } := by decide

/-! ## Decoding: words written out from R81 and R83, DSIZE WID POS TSEL OP from bit 31 down -/

theorem test_decode_new : decodeTableWord 32 0b00000000_00001000_00000000_0000_0000 = some (.new 8) := by decide
theorem test_decode_from : decodeTableWord 64 0x00000089_00000001 = some (.fromRaw 0x89) := by decide
theorem test_decode_add : decodeTableWord 32 0b00000000_00000011_00011110_0000_0010 = some (.add 30 3) := by decide
theorem test_decode_insert :
    decodeTableWord 64 0b10_00000001_00000101_00000011_0000_0011 = some (.insert 3 5 1 2) := by decide
theorem test_decode_get : decodeTableWord 32 0b00000000_00000000_00000111_0000_0100 = some (.get 7) := by decide
theorem test_decode_get_as : decodeTableWord 32 0b00000000_00000000_00000010_1001_0101 = some (.getAs 2 9) := by decide
theorem test_decode_get_raw : decodeTableWord 32 0b00000000_11111111_00001111_0000_0110 = some .getRaw := by decide
theorem test_decode_reserved :
    [0x7, 0x8, 0x9, 0xA, 0xB, 0xC, 0xD, 0xE, 0xF, 0xFFFFFFFF, 0x12345677].map (decodeTableWord 32) =
      List.replicate 11 none := by decide

/-! ## Single steps, from 95_test_vectors.md (the id is the vector's) -/

theorem test_new_V_N2 : left (step ((block preserve 0xA 32 [(0, 4)]).withFetchWord 32 0x00080000)) =
    some (0, 8, [], 0, 0) := by decide
theorem test_new_V_N4 : left (step ((block Config.compat 0xA 32 [(0, 4)]).withFetchWord 32 0x00210000)) =
    some (0xA, 32, [(0, 4)], 1, 0) := by decide
theorem test_from_V_F2 : left (step ((block preserve 0 8 [(0, 8)]).withFetchWord 64 0xFFFFFFFF_00000001)) =
    some (0xFFFFFFFF, 32, [], 0, 0) := by decide
theorem test_from_V_F4 : left (step ((block Config.compat 0x12345678 32 [(0, 8)]).withFetchWord 64 0x12345678_00AB0001)) =
    some (0x12345678, 32, [], 0, 0) := by decide
theorem test_add_V_A10 : left (step ((block Config.compat 0 32 [(0, 2)]).withFetchWord 32 0x00280002)) =
    some (0, 32, [(0, 2)], 1, 0) := by decide
theorem test_add_V_A15 : left (step ((block strict 0 32 [(0, 4), (2, 0), (4, 4)]).withFetchWord 32 0x00010302)) =
    some (0, 32, [(0, 4), (2, 0), (4, 4)], 2, 0) := by decide
theorem test_insert_V_I3 : left (step ((block clearing 0x1 32 [(0, 2)]).withFetchWord 64 0x2_01020003)) =
    some (0x2, 32, [(0, 2)], 0, 0x2) := by decide
theorem test_insert_V_I7 : left (step ((block Config.compat 0 32 []).withFetchWord 64 0xFF_01041C03)) =
    some (0xF0000000, 32, [(28, 4)], 0, 0xFF) := by decide
theorem test_get_V_G2 : left (step ((block Config.compat 0 32 []).withFetchWord 32 0x00002804)) =
    some (0, 32, [], 5, 0) := by decide
theorem test_get_V_G5 : left (step ((block Config.compat 0xAB 32 [(0, 8), (4, 8)]).withFetchWord 32 0x00000404)) =
    some (0xAB, 32, [(0, 8), (4, 8)], 0, 0xA) := by decide
theorem test_get_as_V_G6 : left (step ((block Config.compat 0x12C 32 [(0, 16)]).withFetchWord 32 0x00000005)) =
    some (0x12C, 32, [(0, 16)], 4, 0) := by decide
theorem test_get_as_V_G11 : left (step ((block tc 0x89 32 [(0, 2), (2, 5), (7, 1)]).withFetchWord 32 0x000007A5)) =
    some (0x89, 32, [(0, 2), (2, 5), (7, 1)], 0, 1) := by decide
theorem test_get_raw_V_G13 : left (step ((block Config.compat 0x3 32 [(0, 4)]).withFetchWord 32 0x00FF0F06)) =
    some (0x3, 32, [(0, 4)], 0, 0x3) := by decide
theorem test_reserved_V_X4 : left (step ((block Config.compat 0x3 32 [(0, 4)]).withFetchWord 32 0x12345677)) =
    some (0x3, 32, [(0, 4)], 6, 0) := by decide

/-! ## Assembly lines (R89, R90) -/

theorem test_assemble_program : assemble 32 ["new 8 ; capacity".toList, "".toList, "insert 2,5,0x2,1".toList] =
    some [(0x00080000, 0), (0x01050203, 2)] := by decide
theorem test_assemble_refuses :
    ["new 256".toList, "get_as 0, 16".toList, "add 1".toList, "pop".toList].map (assembleLine 32) =
      [none, none, none, none] := by decide

/-! ## Witnesses: for every obligation with hypotheses, values that meet them -/

theorem witness_DecodeOfEncodeGivesCommandBack :
    8 ≤ maxW ∧ (Instr.insert 2 5 1 0xFF).wellFormed 8 = true := by decide

theorem witness_EncodeOfDecodeKeepsUsedBits :
    decode 0xFF050283 7 = .command (.insert 2 5 0xFF 7) := by decide

theorem witness_OpcodeSelectsCommandAndOperands :
    (List.range 8).map (fun k => (BitVec.ofNat 32 (0x01050200 + k) : Header).toNat % 16) = List.range 8 := by decide

theorem witness_UnusedFieldsAreIgnored :
    ((0x00AB0001 : Header) &&& usedBits (fieldOP 0x00AB0001) = 0x00000001 &&& usedBits (fieldOP 0x00AB0001)) ∧
    ((0x00FF0F06 : Header) &&& usedBits (fieldOP 0x00FF0F06) = 0x00000006 &&& usedBits (fieldOP 0x00FF0F06) ∧
      ¬ ((0x00FF0F06 : Header).toNat % 16 = 1 ∨ (0x00FF0F06 : Header).toNat % 16 = 3)) := by decide

/-- A block about to accept `insert 2, 5, 2, 1` (R90). -/
def accepting : State := { block small 0 8 [] with inputs := [send 0x01050203 2, wait, take] }

theorem witness_StepPerformsAcceptedCommand :
    accepting.cfg.Admitted ∧ accepting.phase = .idle ∧ accepting.inputs = send 0x01050203 2 :: [wait, take] ∧
    (send 0x01050203 2).rst = false ∧ (send 0x01050203 2).cmdValid = true ∧
    decode (send 0x01050203 2).cmdHdr (trunc accepting.cfg.W (send 0x01050203 2).cmdData.toNat) =
      .command (.insert 2 5 1 2) := by decide

theorem witness_FetchWordRunsItsCommand :
    (block small 0 8 []).cfg.Admitted ∧ decodeTableWord 40 0xFF_01050203 = some (.insert 2 5 1 0xFF) ∧
    (Instr.insert 2 5 1 0xFF).wellFormed (block small 0 8 []).cfg.W = true := by decide

theorem witness_ReservedOpcodeAnswersIllegalCommand :
    small.Admitted ∧ ({ block small 0 8 [] with inputs := [send 0x7 0] } : State).phase = .idle ∧
    (send 0x7 0).rst = false ∧ (send 0x7 0).cmdValid = true ∧ 7 ≤ (send 0x7 0).cmdHdr.toNat % 16 ∧
    (0xFFFFFFF6 : Header).toNat % 16 < 7 := by decide

/-- A block with a command in flight, then a reset edge. -/
def resetting : State :=
  { block small 0x89 8 [(0, 2)] with phase := .computing 1, inputs := [resetPin, wait] }

theorem witness_ResetEdgeGivesFreshSet :
    resetting.cfg.Admitted ∧ resetting.inputs = resetPin :: [wait] ∧ resetPin.rst = true ∧
    (block small 1 4 []).cfg = resetting.cfg ∧ wait.rst = false := by decide

/-- A block with a command in flight in the given phase, another command on its port. -/
def busy (ph : Phase) : State := { block small 0x89 8 [] with phase := ph, inputs := [send 0x6 0, wait] }

theorem witness_BusyBlockIgnoresCommandPort :
    ((busy (.computing 1)).cfg.Admitted ∧ (busy (.computing 1)).phase ≠ .idle ∧
      (busy (.computing 1)).inputs = send 0x6 0 :: [wait] ∧ (send 0x6 0).rst = false) ∧
    ((busy .responding).cfg.Admitted ∧ (busy .responding).phase ≠ .idle ∧
      (busy .responding).inputs = send 0x6 0 :: [wait] ∧ (send 0x6 0).rst = false) := by decide

/-- A block presenting the response of a GET_RAW, the requester taking it or not. -/
def presenting (ready : Bool) : State :=
  { block small 0x89 8 [] with
    rspData := 0x89, phase := .responding, inputs := [⟨false, true, 0x6, 0, ready⟩] }

theorem witness_ResponseHeldUntilTaken :
    (presenting false).cfg.Admitted ∧ (presenting false).rspPort = some ⟨.ok, 0x89⟩ ∧
    (presenting false).pins.rspReady = false ∧
    (presenting true).rspPort = some ⟨.ok, 0x89⟩ ∧ (presenting true).pins.rspReady = true := by decide

/-- A block of latency 2 about to accept a command whose response is taken at the first edge that presents it. -/
def slow : State :=
  { block { small with latency := 2 } 0 8 [] with inputs := [send 0x01050203 2, wait, take] }

theorem witness_ResponseAppearsAfterLatency :
    slow.cfg.Admitted ∧ slow.fetch = some (0x01050203, 2) ∧
    (∀ p ∈ slow.inputs.take slow.cfg.latency, p.rst = false) := by decide

theorem witness_ResponsesLeaveInCommandOrder :
    slow.cfg.Admitted ∧ (∀ p ∈ slow.inputs.take 3, p.rst = false) ∧
    acceptedIn 3 slow = [⟨.ok, 2⟩] ∧ deliveredIn 3 slow = [⟨.ok, 2⟩] := by decide

theorem witness_HandshakeRefinesOneCommandStep :
    slow.cfg.Admitted ∧ slow.fetch = some (0x01050203, 2) ∧
    (∀ p ∈ slow.inputs.take (slow.cfg.latency + 1), p.rst = false) ∧
    slow.inputs[slow.cfg.latency]? = some take ∧ take.rspReady = true := by decide

theorem witness_EveryEdgeAnswersANextState :
    accepting.cfg.Admitted ∧ ¬ (block { small with W := 0 } 0 0 []).cfg.Admitted := by decide

theorem witness_EveryEdgeKeepsInvariant :
    accepting.Inv ∧ ∃ t, step accepting = .next t ∧ t.storage = 8 := ⟨by decide, _, rfl, by decide⟩

theorem witness_ResetMeetsInvariant :
    Config.Admitted { small with W := 1 } ∧ Config.Admitted { small with W := 128 } := by decide

theorem witness_ConfigurationNeverChanges :
    (∃ t, exec (.new 8) accepting = .next t) ∧ ∃ t, step accepting = .next t := ⟨⟨_, rfl⟩, _, rfl⟩

theorem witness_WidenKeepsFullCapacity :
    accepting.cfg.capMode = .widen ∧ accepting.cfg.Admitted ∧ accepting.numbits.toNat = accepting.cfg.W ∧
    ∃ t, run 2 accepting = .next t := ⟨by decide, by decide, by decide, _, rfl⟩

theorem witness_OnlyStrictAddKeepsFieldsDisjoint :
    (block smallStrict 0 8 [(0, 4)]).Inv ∧ smallStrict.strictOverlap = true ∧
    (block smallStrict 0 8 [(0, 4)]).NoOverlap ∧
    (∃ t, exec (.add 4 4) (block smallStrict 0 8 [(0, 4)]) = .next t ∧ t.rspStatus = .ok) ∧
    small.strictOverlap = false ∧
    (∃ t, exec (.add 0 4) (block small 0 8 [(0, 4)]) = .next t ∧ t.rspStatus = .wouldOverlap) ∧
    ∃ t, exec (.insert 0 4 1 0) (block smallStrict 0 8 [(0, 4)]) = .next t ∧ t.rspStatus = .ok :=
  ⟨by decide, by decide, by decide, ⟨_, rfl, by decide⟩, by decide, ⟨_, rfl, by decide⟩, _, rfl, by decide⟩

/-- A block that holds a word, a capacity and a field no construction command leaves, about to accept `new 8`. -/
def renewing : State := { block { small with capMode := .preserve } 1 4 [(0, 2)] with inputs := [send 0x00080000 0] }

theorem witness_RegistersHaveTheirWritersOnly :
    renewing.pins.rst = false ∧ ∃ t, step renewing = .next t ∧ t.storage ≠ renewing.storage ∧
      t.numbits ≠ renewing.numbits ∧ t.entry ≠ renewing.entry := ⟨by decide, _, rfl, by decide⟩

theorem witness_RegisteredFieldsAreNeverDropped_construction :
    renewing.Inv ∧ renewing.pins.rst = false ∧ (renewing.entryAt 0).v = true ∧
    ∃ t, step renewing = .next t ∧ 0 ≤ renewing.cfg.W ∧ t.entryAt 0 ≠ renewing.entryAt 0 :=
  ⟨by decide, by decide, by decide, _, rfl, by decide⟩

/-- A block about to re-register its field at 2 with another width. -/
def reregistering : State := { accepting with entry := accepting.entry.set 2 ⟨true, 1⟩ }

theorem witness_RegisteredFieldsAreNeverDropped_insert :
    reregistering.Inv ∧ reregistering.pins.rst = false ∧ (reregistering.entryAt 2).v = true ∧
    ∃ t, step reregistering = .next t ∧ 2 ≤ reregistering.cfg.W ∧ t.entryAt 2 ≠ reregistering.entryAt 2 :=
  ⟨by decide, by decide, by decide, _, rfl, by decide⟩

theorem witness_FailingCommandChangesNoState :
    ∃ t, perform 0x00090002 0 (block small 3 8 []) = .next t ∧ t.rspStatus ≠ .ok := ⟨_, rfl, by decide⟩

theorem witness_StatusesEachCommandCanGive :
    (∃ t, exec (.new 9) accepting = .next t) ∧ (∃ t, exec (.fromRaw 9) accepting = .next t) ∧
    (∃ t, exec (.add 0 1) accepting = .next t) ∧ (∃ t, exec (.insert 0 1 1 1) accepting = .next t) ∧
    (∃ t, exec (.get 0) accepting = .next t) ∧ (∃ t, exec (.getAs 0 0) accepting = .next t) ∧
    (∃ t, exec .getRaw accepting = .next t) ∧
    ∃ t, 7 ≤ (0x7 : Header).toNat % 16 ∧ perform 0x7 0 accepting = .next t :=
  ⟨⟨_, rfl⟩, ⟨_, rfl⟩, ⟨_, rfl⟩, ⟨_, rfl⟩, ⟨_, rfl⟩, ⟨_, rfl⟩, ⟨_, rfl⟩, _, by decide, rfl⟩

theorem witness_ReadsChangeNoState :
    (∃ pos, Instr.get 0 = .get pos) ∧ (∃ pos tsel, Instr.getAs 3 1 = .getAs pos tsel) := ⟨⟨_, rfl⟩, _, _, rfl⟩

theorem witness_InvalidWidthsAreNeverObservable :
    SameButInvalidWidths accepting { accepting with entry := accepting.entry.set 3 ⟨false, 7⟩ } ∧
    ∃ t, step accepting = .next t := by
  refine ⟨⟨rfl, by decide, fun p => ?_⟩, _, rfl⟩
  by_cases h : p < 9
  · revert p; decide
  · have e : ∀ s : State, s.entry.length = 9 → s.entryAt p = Entry.empty := fun s hs => by
      simp [State.entryAt, List.getD_eq_getElem?_getD, List.getElem?_eq_none (show s.entry.length ≤ p by omega)]
    rw [e _ (by decide), e accepting (by decide)]
    simp [Entry.empty]

theorem witness_LatencyChangesNoEffect : ∃ t, perform 0x00080000 0 accepting = .next t := ⟨_, rfl⟩

theorem witness_MaskOnesExactlyAtField : 1 ≤ maxW ∧ 128 ≤ maxW := by decide

theorem witness_NewConstructsEmptySet :
    (8 : Byte).toNat ≤ accepting.cfg.W ∧ accepting.cfg.W < (9 : Byte).toNat := by decide

theorem witness_FromLoadsRawWord :
    accepting.cfg.Admitted ∧ (Instr.fromRaw 0xFF).wellFormed accepting.cfg.W = true := by decide

theorem witness_ConstructionForgetsEveryField :
    (∃ t, exec (.new 8) renewing = .next t ∧ t.rspStatus = .ok) ∧
    ∃ t, exec (.fromRaw 0xFF) renewing = .next t ∧ t.rspStatus = .ok := ⟨⟨_, rfl, rfl⟩, _, rfl, rfl⟩

/-- A strict block with a field at 0 of width 4. -/
def oneField : State := block smallStrict 0x0F 8 [(0, 4)]

theorem witness_AddRegistersField_bounds :
    oneField.Inv ∧ oneField.numbits.toNat < (4 : Byte).toNat + (5 : Byte).toNat := by decide

theorem witness_AddRegistersField_claimed :
    (3 : Byte).toNat + (1 : Byte).toNat ≤ oneField.numbits.toNat ∧ oneField.cfg.strictOverlap = true ∧
    ∃ q i, q ≠ (3 : Byte).toNat ∧ q ≤ oneField.cfg.W ∧ oneField.Covers q i ∧ (3 : Byte).toNat ≤ i ∧
      i < (3 : Byte).toNat + (1 : Byte).toNat := ⟨by decide, by decide, 0, 3, by decide⟩

theorem witness_AddRegistersField_registers :
    (4 : Byte).toNat + (4 : Byte).toNat ≤ oneField.numbits.toNat ∧ (oneField.entryAt 4).v = false ∧
    ¬ ∃ q i, q ≠ (4 : Byte).toNat ∧ q ≤ oneField.cfg.W ∧ oneField.Covers q i ∧ (4 : Byte).toNat ≤ i ∧
      i < (4 : Byte).toNat + (4 : Byte).toNat := by
  refine ⟨by decide, by decide, ?_⟩
  rintro ⟨q, i, -, hq, ⟨hv, h1, h2⟩, h3, h4⟩
  have hq' : q < 9 := Nat.lt_succ_of_le hq
  have : ∀ q < 9, (oneField.entryAt q).v = true → q + (oneField.entryAt q).w.toNat ≤ 4 := by decide
  have := this q hq' hv
  have h4' : (4 : Byte).toNat = 4 := by decide
  omega

theorem witness_InsertWritesAndRegistersField :
    oneField.Inv ∧ (Instr.insert 4 4 8 0xFF).wellFormed oneField.cfg.W = true ∧
    oneField.numbits.toNat < (4 : Byte).toNat + (5 : Byte).toNat ∧
    ((4 : Byte).toNat + (4 : Byte).toNat ≤ oneField.numbits.toNat ∧ oneField.numbits.toNat < (9 : Byte).toNat) ∧
    (oneField.cfg.dtlUnit = .bytes ∧ (8 : Byte).toNat ≤ oneField.numbits.toNat ∧ oneField.cfg.valueCheck = false) := by
  decide

theorem witness_InsertWritesAndRegistersField_value :
    (block { small with valueCheck := true, dtlUnit := .bits } 0 8 []).Inv ∧ 2 ^ (4 : Byte).toNat ≤ (16 : Word).toNat ∧
    8 * (1 : Byte).toNat ≤ (block small 0 8 []).numbits.toNat := by decide

theorem witness_InsertIgnoresRegisteredFields :
    (∃ t, exec (.add 0 1) oneField = .next t ∧ t.rspStatus = .wouldOverlap) ∧
    ∃ t, exec (.insert 0 4 1 0xA) oneField = .next t ∧ t.rspStatus = .ok := ⟨⟨_, rfl, rfl⟩, _, rfl, rfl⟩

theorem witness_ReinsertionKeepsStaleBits :
    (block small 0 8 []).Inv ∧ ∃ t u, exec (.insert 0 4 4 0xA) (block small 0 8 []) = .next t ∧ t.rspStatus = .ok ∧
      exec (.insert 0 4 4 0x5) t = .next u ∧ u.rspStatus = .ok := ⟨by decide, _, _, rfl, rfl, rfl, rfl⟩

theorem witness_InsertSpillsAboveItsField :
    (block small 0 8 []).Inv ∧ ∃ t, exec (.insert 4 2 1 0xF) (block small 0 8 []) = .next t ∧ t.rspStatus = .ok :=
  ⟨by decide, _, rfl, rfl⟩

theorem witness_InsertedValueIsReadBack :
    (block small 0x0F 8 []).Inv ∧ (4 : Byte).toNat + (4 : Byte).toNat ≤ (block small 0x0F 8 []).numbits.toNat ∧
    (0xF : Word).toNat < 2 ^ (4 : Byte).toNat ∧ (block small 0x0F 8 []).dtl (1 : Byte).toNat = false ∧
    (∀ i, (4 : Byte).toNat ≤ i → i < (4 : Byte).toNat + (4 : Byte).toNat →
      (block small 0x0F 8 []).storage.getLsbD i = false) ∧
    (block { small with insertClear := true } 0xFF 8 []).cfg.insertClear = true := by
  refine ⟨by decide, by decide, by decide, by decide, fun i h1 h2 => ?_, by decide⟩
  have e : (4 : Byte).toNat = 4 := by decide
  rw [e] at h1 h2
  interval_cases i <;> decide

theorem witness_OutOfBoundsExactlyWhenPastCapacity :
    (∃ t, exec (.new 9) oneField = .next t ∧ t.rspStatus = .outOfBounds) ∧
    (∃ t, exec (.add 8 0) oneField = .next t ∧ t.rspStatus = .ok) ∧
    ∃ t, exec (.insert 255 255 0 0) oneField = .next t ∧ t.rspStatus = .outOfBounds :=
  ⟨⟨_, rfl, rfl⟩, ⟨_, rfl, rfl⟩, _, rfl, rfl⟩

theorem witness_WouldOverlapExactly :
    oneField.Inv ∧ (3 : Byte).toNat + (5 : Byte).toNat ≤ oneField.numbits.toNat ∧
    (∃ t, exec (.add 3 5) oneField = .next t ∧ t.rspStatus = .wouldOverlap) ∧
    (∃ t, exec (.add 4 4) oneField = .next t ∧ t.rspStatus = .ok) ∧
    ∃ t, perform 0x00010002 0 oneField = .next t ∧ t.rspStatus = .wouldOverlap :=
  ⟨by decide, by decide, ⟨_, rfl, by decide⟩, ⟨_, rfl, by decide⟩, _, rfl, by decide⟩

theorem witness_DataTooLargeExactly :
    oneField.cfg.Admitted ∧ (Instr.insert 0 8 9 0xFF).wellFormed oneField.cfg.W = true ∧
    (0 : Byte).toNat + (8 : Byte).toNat ≤ oneField.numbits.toNat ∧
    ∃ t, exec (.insert 0 8 9 0xFF) oneField = .next t ∧ t.rspStatus = .dataTooLarge :=
  ⟨by decide, by decide, by decide, _, rfl, rfl⟩

theorem witness_InsertAtTheWordsEdges :
    (block small 0 8 []).Inv ∧ (block small 0 8 []).numbits.toNat = small.W ∧ small.valueCheck = false ∧
    (0xFF : Word).toNat < 2 ^ small.W ∧ (block small 0 8 []).dtl (8 : Byte).toNat = false ∧
    (block small 0 8 []).storage = 0 := by decide

theorem witness_GetReadsExactlyTheFieldsBits :
    oneField.cfg.Admitted ∧ oneField.StorageFits ∧
    ((0 : Byte).toNat ≤ oneField.cfg.W ∧ (oneField.entryAt (0 : Byte).toNat).v = true) ∧
    (9 : Byte).toNat > oneField.cfg.W ∧ (oneField.entryAt (8 : Byte).toNat).v = false := by decide

theorem witness_GetAsAnswersAcceptedValuesOnly :
    oneField.cfg.Admitted ∧ oneField.StorageFits ∧
    ((0 : Byte).toNat ≤ oneField.cfg.W ∧ (oneField.entryAt (0 : Byte).toNat).v = true) ∧
    typeAccepts oneField.cfg 0 0xF = true ∧ typeAccepts oneField.cfg 5 0xF = false ∧
    (9 : Byte).toNat > oneField.cfg.W ∧ (oneField.entryAt (8 : Byte).toNat).v = false := by decide

theorem witness_GetRawExportsAndFromReimports : oneField.Inv := by decide

theorem witness_ReadsStayWithinRegisteredWidth :
    (∃ t, exec (.get 0) oneField = .next t ∧ t.rspData = 0xF) ∧
    ∃ t, exec (.getAs 0 0) oneField = .next t ∧ t.rspData = 0xF := ⟨⟨_, rfl, by decide⟩, _, rfl, by decide⟩

theorem witness_TryFromErrorExactly :
    oneField.Inv ∧ (∃ g, exec (.get 0) oneField = .next g) ∧ ∃ t, exec (.getAs 0 5) oneField = .next t ∧
      t.rspStatus = .tryFromError := ⟨by decide, ⟨_, rfl⟩, _, rfl, by decide⟩

theorem witness_ReimportReproducesEveryRead :
    (block small 0x89 8 [(0, 2), (2, 5), (7, 1)]).Inv ∧ small.strictOverlap = false := by decide

end Sys2Proof.Tests
end

section
/-! The field mask (00_scope.md R19): its value, from the truncation law, and the three corners the rule names. -/

namespace Sys2Proof.Machine

/-- The formula of R19 by value: the ones are shifted exactly, and only then truncated. -/
theorem mask_toNat {W : Nat} (hW : W ≤ maxW) (pos width : Nat) :
    (mask W pos width).toNat = ((2 ^ width - 1) * 2 ^ pos) % 2 ^ W := by
  rw [mask, trunc_toNat hW, Nat.shiftLeft_eq]

@[simp] theorem mask_width_zero (W pos : Nat) : mask W pos 0 = 0 := by simp [mask]

/-- A field of the whole word: its ones already fit in `W` bits, so truncation drops none. -/
theorem mask_full_toNat {W : Nat} (hW : W ≤ maxW) : (mask W 0 W).toNat = 2 ^ W - 1 := by
  have hfit : 2 ^ W - 1 < 2 ^ W := Nat.sub_lt (Nat.two_pow_pos W) Nat.one_pos
  rw [mask_toNat hW, pow_zero, mul_one, Nat.mod_eq_of_lt hfit]

/-- Settles O33: the bits are `getLsbD_mask`, the value is `mask_toNat`, and each corner is its own lemma. -/
theorem maskOnesExactlyAtField : Obligations.MaskOnesExactlyAtField := by
  intro W hW
  exact ⟨fun pos width => ⟨mask_toNat hW pos width, getLsbD_mask hW pos width⟩,
    mask_width_zero W, mask_full_toNat hW, mask_width_zero W W⟩

end Sys2Proof.Machine
end

section
/-! The field table under commands and edges (10_state.md R36, R37): which commands keep the registered fields disjoint,
and how a registered slot can change. -/

namespace Sys2Proof.Machine

/-! ## Slots and the bits they cover -/

/-- A field that passes the bounds check starts at a position with a slot: `pos <= NUMBITS <= W` (R32, R33, R140). -/
theorem lt_length_of_oob_eq_false {s : State} {pos width : Nat} (hcap : s.CapacityFits) (htab : s.TableShaped)
    (h : s.oob pos width = false) : pos < s.entry.length := by
  have hin : ¬ s.numbits.toNat < pos + width := by rw [← oob_iff, h]; exact Bool.false_ne_true
  omega

/-- The bits of a field after one is registered at `p`: its own range there, the old range elsewhere. -/
theorem covers_writeEntry {s : State} {p : Nat} (hp : p < s.entry.length) (w : Byte) (q i : Nat) :
    (s.writeEntry p w.toNat).Covers q i ↔ if q = p then p ≤ i ∧ i < p + w.toNat else s.Covers q i := by
  simp only [State.Covers, entryAt_writeEntry hp]
  split
  next h => simp [h]
  next h => rfl

/-- Registering a field that shares no bit with the fields at other positions keeps the fields disjoint. -/
theorem noOverlap_writeEntry {s : State} {p : Nat} {w : Byte} (hp : p < s.entry.length) (hs : s.NoOverlap)
    (hnew : ∀ q i, q ≠ p → q ≤ s.cfg.W → s.Covers q i → ¬ (p ≤ i ∧ i < p + w.toNat)) :
    (s.writeEntry p w.toNat).NoOverlap := by
  intro a ha b hb hab i hi
  simp only [covers_writeEntry hp]
  have haW : a ≤ s.cfg.W := Nat.le_of_lt_succ (List.mem_range.mp ha)
  have hbW : b ≤ s.cfg.W := Nat.le_of_lt_succ (List.mem_range.mp hb)
  split_ifs with hap hbp hbp
  · exact absurd (hap.trans hbp.symm) hab
  · exact fun ⟨hrange, hcov⟩ => hnew b i hbp hbW hcov hrange
  · exact fun ⟨hcov, hrange⟩ => hnew a i hap haW hcov hrange
  · exact hs a ha b hb hab i hi

/-! ## The overlap check of ADD (R36, R141) -/

/-- Without `STRICT_OVERLAP` the check sees the start position only (R36). -/
theorem ovl_of_not_strict {s : State} (h : s.cfg.strictOverlap = false) (pos width : Nat) :
    s.ovl pos width = (s.entryAt pos).v := by
  simp [State.ovl, h]

/-- ADD reports an overlap exactly when the field is within bounds and the check finds one (R144, R208). -/
theorem execAdd_wouldOverlap_iff {s t : State} {pos wid : Byte} (h : exec (.add pos wid) s = .next t) :
    t.rspStatus = .wouldOverlap ↔ s.oob pos.toNat wid.toNat = false ∧ s.ovl pos.toNat wid.toNat = true := by
  obtain ⟨hoob, e⟩ | ⟨hoob, hovl, e⟩ | ⟨hoob, hovl, e⟩ := execAdd_cases pos wid s
  all_goals
    rw [e] at h
    cases h
    simp [*]

/-- INSERT makes no overlap check (R146). -/
theorem execInsert_ne_wouldOverlap {s t : State} {pos wid dsize : Byte} {dat : Word}
    (h : exec (.insert pos wid dsize dat) s = .next t) : t.rspStatus ≠ .wouldOverlap := by
  obtain ⟨-, e⟩ | ⟨-, -, e⟩ | ⟨-, -, -, e⟩ := execInsert_cases pos wid dsize dat s
  all_goals
    rw [e] at h
    cases h
    simp

/-- Under `STRICT_OVERLAP` an ADD that registers its field has found it disjoint from every other one. -/
theorem execAdd_noOverlap_of_strict {s t : State} {pos wid : Byte} (hcap : s.CapacityFits) (htab : s.TableShaped)
    (hstrict : s.cfg.strictOverlap = true) (hs : s.NoOverlap) (h : exec (.add pos wid) s = .next t) :
    t.NoOverlap := by
  obtain ⟨-, e⟩ | ⟨-, -, e⟩ | ⟨hoob, hovl, e⟩ := execAdd_cases pos wid s
  · rw [e] at h; cases h; exact hs
  · rw [e] at h; cases h; exact hs
  · rw [e] at h; cases h
    have hfree : ∀ q i, q ≠ pos.toNat → q ≤ s.cfg.W → s.Covers q i →
        ¬ (pos.toNat ≤ i ∧ i < pos.toNat + wid.toNat) := by
      rintro q i hne hq hcov ⟨hlo, hhi⟩
      have : s.ovl pos.toNat wid.toNat = true := (ovl_iff ..).mpr (.inr ⟨hstrict, q, i, hne, hq, hcov, hlo, hhi⟩)
      rw [hovl] at this
      exact absurd this Bool.false_ne_true
    exact noOverlap_writeEntry (lt_length_of_oob_eq_false hcap htab hoob) hs hfree

/-- A block of width 4 with one field, bits 0 and 1, registered at position 0: a field at position 1 intersects it
without sharing its start position. -/
def fieldAtZero (strict : Bool) : State :=
  (State.resetOf { Config.compat with W := 4, strictOverlap := strict } []).writeEntry 0 2

theorem fieldAtZero_inv : ∀ strict, (fieldAtZero strict).Inv := by decide

theorem fieldAtZero_noOverlap : ∀ strict, (fieldAtZero strict).NoOverlap := by decide

/-- Registering a one-bit field at position 1 of that block makes bit 1 belong to two fields. -/
theorem fieldAtZero_writeEntry_overlaps : ∀ strict, ¬ ((fieldAtZero strict).writeEntry 1 1).NoOverlap := by decide

/-- Settles O23. The two counterexamples act on `fieldAtZero`: ADD of a field at 1 on the non-strict block, INSERT of
one on either. -/
theorem onlyStrictAddKeepsFieldsDisjoint : Obligations.OnlyStrictAddKeepsFieldsDisjoint := by
  refine ⟨?_, ?_, ?_, ?_, fun s t pos wid dsize dat h => execInsert_ne_wouldOverlap h⟩
  · rintro s t pos wid ⟨-, -, hcap, htab, -⟩ hstrict hs h
    exact execAdd_noOverlap_of_strict hcap htab hstrict hs h
  · intro s t pos wid hstrict h
    rw [execAdd_wouldOverlap_iff h, ovl_of_not_strict hstrict, ← Bool.not_eq_true, oob_iff, not_lt]
  · exact ⟨fieldAtZero false, _, 1, 1, fieldAtZero_inv _, rfl, fieldAtZero_noOverlap _, rfl,
      fieldAtZero_writeEntry_overlaps false⟩
  · intro strict
    exact ⟨fieldAtZero strict, _, 1, 1, 1, 0, fieldAtZero_inv _, rfl, fieldAtZero_noOverlap _, rfl,
      fieldAtZero_writeEntry_overlaps strict⟩

/-! ## How a registered slot can change (R37) -/

/-- An ADD leaves every registered slot as it is: the overlap check keeps it off the taken positions (R141, R144). -/
theorem execAdd_entryAt_of_registered {s t : State} {pos wid : Byte} {p : Nat} (hcap : s.CapacityFits)
    (htab : s.TableShaped) (h : exec (.add pos wid) s = .next t) (hv : (s.entryAt p).v = true) :
    t.entryAt p = s.entryAt p := by
  obtain ⟨-, e⟩ | ⟨-, -, e⟩ | ⟨hoob, hovl, e⟩ := execAdd_cases pos wid s
  · rw [e] at h; cases h; rfl
  · rw [e] at h; cases h; rfl
  · rw [e] at h; cases h
    have hne : p ≠ pos.toNat := by
      rintro rfl
      exact absurd (hovl.symm.trans ((ovl_iff ..).mpr (.inl hv))) Bool.false_ne_true
    rw [entryAt_writeResponse, entryAt_writeEntry (lt_length_of_oob_eq_false hcap htab hoob), if_neg hne]

/-- An INSERT changes no slot but the one at its position, which then holds its width (R145). -/
theorem execInsert_entryAt {s t : State} {pos wid dsize : Byte} {dat : Word} (hcap : s.CapacityFits)
    (htab : s.TableShaped) (h : exec (.insert pos wid dsize dat) s = .next t) (p : Nat) :
    t.entryAt p = s.entryAt p ∨ (pos.toNat = p ∧ t.entryAt p = ⟨true, wid⟩) := by
  obtain ⟨-, e⟩ | ⟨-, -, e⟩ | ⟨hoob, -, -, e⟩ := execInsert_cases pos wid dsize dat s
  · rw [e] at h; cases h; exact .inl rfl
  · rw [e] at h; cases h; exact .inl rfl
  · rw [e] at h; cases h
    have hp : pos.toNat < (s.writeStorage (s.insertedWord pos.toNat wid.toNat
        (trunc s.cfg.W dat.toNat)).toNat).entry.length := lt_length_of_oob_eq_false hcap htab hoob
    rw [entryAt_writeResponse, entryAt_writeEntry hp]
    by_cases hpos : p = pos.toNat
    · exact .inr ⟨hpos.symm, by simp [hpos]⟩
    · exact .inl (by simp [hpos])

/-- The commands that change a registered slot, and what each leaves (R37). -/
theorem exec_entryAt_of_registered {i : Instr} {s t : State} {p : Nat} (hcap : s.CapacityFits) (htab : s.TableShaped)
    (h : exec i s = .next t) (hv : (s.entryAt p).v = true) :
    t.entryAt p = s.entryAt p ∨
    (∃ pos wid dsize dat, i = .insert pos wid dsize dat ∧ pos.toNat = p ∧ t.entryAt p = ⟨true, wid⟩) ∨
    (((∃ n, i = .new n) ∨ ∃ raw, i = .fromRaw raw) ∧ ∀ q, (t.entryAt q).v = false) := by
  cases i with
  | new n =>
    obtain ⟨-, e⟩ | ⟨-, e⟩ := execNew_cases n s
    · rw [e] at h; cases h; exact .inl rfl
    · rw [e] at h; cases h
      exact .inr (.inr ⟨.inl ⟨n, rfl⟩, fun q => by simp [Entry.empty]⟩)
  | fromRaw raw =>
    rw [execFrom_eq] at h; cases h
    exact .inr (.inr ⟨.inr ⟨raw, rfl⟩, fun q => by simp [Entry.empty]⟩)
  | add pos wid => exact .inl (execAdd_entryAt_of_registered hcap htab h hv)
  | insert pos wid dsize dat =>
    obtain hsame | ⟨hpos, hslot⟩ := execInsert_entryAt hcap htab h p
    · exact .inl hsame
    · exact .inr (.inl ⟨pos, wid, dsize, dat, rfl, hpos, hslot⟩)
  | get pos =>
    obtain ⟨-, e⟩ | ⟨-, e⟩ := execGet_cases pos s <;> (rw [e] at h; cases h; exact .inl rfl)
  | getAs pos tsel =>
    obtain ⟨-, -, e⟩ | ⟨-, e⟩ := execGetAs_cases pos tsel s <;> (rw [e] at h; cases h; exact .inl rfl)
  | getRaw => rw [execGetRaw_eq] at h; cases h; exact .inl rfl

/-- An edge without a reset performs the command it accepts, or leaves the architectural state as it is: it accepts none
then, or a reserved opcode (R80, R84). -/
theorem step_cases_of_no_rst {s t : State} (hr : s.pins.rst = false) (h : step s = .next t) :
    (∃ i, s.nextCommand = some i ∧ exec i s.acceptEdge = .next t) ∨
    (s.nextCommand = none ∧ t.storage = s.storage ∧ t.numbits = s.numbits ∧ t.entry = s.entry) := by
  obtain ⟨-, ⟨hdr, cdata, hf, hp⟩ | ⟨hf, rfl⟩⟩ := step_cases h
  · obtain ⟨i, hd, e⟩ | ⟨err, hd, e⟩ := perform_cases hdr cdata s.acceptEdge
    · exact .inl ⟨i, by simp [State.nextCommand, hf, hd, Decoded.toOption], e ▸ hp⟩
    · rw [e] at hp; cases hp
      exact .inr ⟨by simp [State.nextCommand, hf, hd, Decoded.toOption], rfl, rfl, rfl⟩
  · rw [otherEdge_of_no_rst hr]
    exact .inr ⟨by simp [State.nextCommand, hf], rfl, rfl, rfl⟩

/-- Settles O25: a changed slot means the edge performed a command, and the command is one of those of
`exec_entryAt_of_registered`. -/
theorem registeredFieldsAreNeverDropped : Obligations.RegisteredFieldsAreNeverDropped := by
  rintro s t p ⟨-, -, hcap, htab, -⟩ hr h - hv hne
  obtain ⟨i, hi, he⟩ | ⟨-, -, -, hentry⟩ := step_cases_of_no_rst hr h
  · obtain hsame | ⟨pos, wid, dsize, dat, rfl, hpos, hslot⟩ | ⟨hcmd, hall⟩ :=
      exec_entryAt_of_registered (s := s.acceptEdge) hcap htab he hv
    · exact absurd hsame hne
    · exact .inl ⟨pos, wid, dsize, dat, hi, hpos, hslot⟩
    · refine .inr ⟨?_, hall⟩
      obtain ⟨n, rfl⟩ | ⟨raw, rfl⟩ := hcmd
      · exact .inl ⟨n, hi⟩
      · exact .inr ⟨raw, hi⟩
  · exact absurd (by rw [State.entryAt, State.entryAt, hentry]) hne

end Sys2Proof.Machine
end

section
/-! The read commands (10_state.md R67): what they leave unchanged, and what their answer does not depend on. -/

namespace Sys2Proof.Machine

/-- The field reads: GET, GET_AS and GET_RAW (R67). -/
def IsRead (i : Instr) : Prop :=
  (∃ pos, i = .get pos) ∨ (∃ pos tsel, i = .getAs pos tsel) ∨ i = .getRaw

/-- A read answers one next state, in which nothing but the response registers is new. -/
theorem exec_eq_next_of_isRead {i : Instr} (hi : IsRead i) (s : State) :
    ∃ st d, exec i s = .next { s with rspStatus := st, rspData := d } := by
  obtain ⟨pos, rfl⟩ | ⟨pos, tsel, rfl⟩ | rfl := hi
  · obtain ⟨-, e⟩ | ⟨-, e⟩ := execGet_cases pos s
    · exact ⟨_, _, e⟩
    · exact ⟨_, _, e⟩
  · obtain ⟨-, -, e⟩ | ⟨-, e⟩ := execGetAs_cases pos tsel s
    · exact ⟨_, _, e⟩
    · exact ⟨_, _, e⟩
  · exact ⟨_, _, execGetRaw_eq s⟩

/-- A read overwrites both response registers, and its condition and value come from the word, the table and the
configuration alone: what the response registers held before makes no difference. -/
theorem exec_withResponse_of_isRead {i : Instr} (hi : IsRead i) (s : State) (st : Status) (d : Word) :
    exec i { s with rspStatus := st, rspData := d } = exec i s := by
  obtain ⟨pos, rfl⟩ | ⟨pos, tsel, rfl⟩ | rfl := hi
  · rfl
  · rfl
  · rfl

/-- Settles O28: the answer of a read, by `exec_eq_next_of_isRead`, is also its answer after any other response. -/
theorem readsChangeNoState : Obligations.ReadsChangeNoState := by
  intro i s hi
  obtain ⟨st, d, e⟩ := exec_eq_next_of_isRead hi s
  exact ⟨st, d, e, fun st' d' => (exec_withResponse_of_isRead hi s st' d').trans e⟩

end Sys2Proof.Machine
end

section
/-! The command header under the decoder (30_encoding.md R81 to R85, R90): its fields as numbers, what each opcode
decodes to, and which header bits that depends on. -/

namespace Sys2Proof

/-! ## Header fields as numbers (R81, R82) -/

/-- A field read by division and remainder of the header as one number. -/
theorem extractLsb'_eq_ofNat_div_mod (h : Header) (start len : Nat) :
    h.extractLsb' start len = BitVec.ofNat len (h.toNat / 2 ^ start % 2 ^ len) := by
  apply BitVec.eq_of_toNat_eq
  simp [BitVec.extractLsb'_toNat, Nat.shiftRight_eq_div_pow]

theorem fieldTSEL_eq_ofNat (h : Header) : fieldTSEL h = BitVec.ofNat 4 (h.toNat / 2 ^ 4 % 16) :=
  extractLsb'_eq_ofNat_div_mod h 4 4

theorem fieldPOS_eq_ofNat (h : Header) : fieldPOS h = BitVec.ofNat 8 (h.toNat / 2 ^ 8 % 256) :=
  extractLsb'_eq_ofNat_div_mod h 8 8

theorem fieldWID_eq_ofNat (h : Header) : fieldWID h = BitVec.ofNat 8 (h.toNat / 2 ^ 16 % 256) :=
  extractLsb'_eq_ofNat_div_mod h 16 8

/-- The top field needs no remainder: nothing of the header lies above it. -/
theorem fieldDSIZE_eq_ofNat (h : Header) : fieldDSIZE h = BitVec.ofNat 8 (h.toNat / 2 ^ 24) := by
  have htop : h.toNat / 2 ^ 24 < 2 ^ 8 := by have := h.isLt; omega
  rw [fieldDSIZE, extractLsb'_eq_ofNat_div_mod, Nat.mod_eq_of_lt htop]

theorem fieldOP_eq_ofNat (h : Header) : fieldOP h = BitVec.ofNat 4 (h.toNat % 16) := by
  rw [← fieldOP_toNat, BitVec.ofNat_toNat, BitVec.setWidth_eq]

/-! ## The opcode map, a row at a time (R83, R84) -/

section Rows
variable {hdr : Header} (cdata : Word)

theorem decode_of_op_new (h : hdr.toNat % 16 = 0) : decode hdr cdata = .command (.new (fieldWID hdr)) := by
  simp only [decode, fieldOP_toNat, h]

theorem decode_of_op_from (h : hdr.toNat % 16 = 1) : decode hdr cdata = .command (.fromRaw cdata) := by
  simp only [decode, fieldOP_toNat, h]

theorem decode_of_op_add (h : hdr.toNat % 16 = 2) :
    decode hdr cdata = .command (.add (fieldPOS hdr) (fieldWID hdr)) := by
  simp only [decode, fieldOP_toNat, h]

theorem decode_of_op_insert (h : hdr.toNat % 16 = 3) :
    decode hdr cdata = .command (.insert (fieldPOS hdr) (fieldWID hdr) (fieldDSIZE hdr) cdata) := by
  simp only [decode, fieldOP_toNat, h]

theorem decode_of_op_get (h : hdr.toNat % 16 = 4) : decode hdr cdata = .command (.get (fieldPOS hdr)) := by
  simp only [decode, fieldOP_toNat, h]

theorem decode_of_op_getAs (h : hdr.toNat % 16 = 5) :
    decode hdr cdata = .command (.getAs (fieldPOS hdr) (fieldTSEL hdr)) := by
  simp only [decode, fieldOP_toNat, h]

theorem decode_of_op_getRaw (h : hdr.toNat % 16 = 6) : decode hdr cdata = .command .getRaw := by
  simp only [decode, fieldOP_toNat, h]

theorem decode_of_op_reserved (h : 7 ≤ hdr.toNat % 16) :
    decode hdr cdata = .reject (.reservedOpcode (fieldOP hdr)) := by
  rw [← fieldOP_toNat] at h
  unfold decode
  split
  case h_8 => rfl
  all_goals omega

end Rows

/-- The eight rows of the opcode map leave no header out (R83, R84). -/
theorem op_cases (hdr : Header) :
    hdr.toNat % 16 = 0 ∨ hdr.toNat % 16 = 1 ∨ hdr.toNat % 16 = 2 ∨ hdr.toNat % 16 = 3 ∨
    hdr.toNat % 16 = 4 ∨ hdr.toNat % 16 = 5 ∨ hdr.toNat % 16 = 6 ∨ 7 ≤ hdr.toNat % 16 := by omega

/-- Settles O4: a row of the opcode map for each clause, its operand fields read as numbers. -/
theorem opcodeSelectsCommandAndOperands : Obligations.OpcodeSelectsCommandAndOperands := by
  intro hdr cdata
  simp only [← fieldPOS_eq_ofNat, ← fieldWID_eq_ofNat, ← fieldDSIZE_eq_ofNat, ← fieldTSEL_eq_ofNat,
    ← fieldOP_eq_ofNat]
  exact ⟨decode_of_op_new cdata, decode_of_op_from cdata, decode_of_op_add cdata, decode_of_op_insert cdata,
    decode_of_op_get cdata, decode_of_op_getAs cdata, decode_of_op_getRaw cdata, decode_of_op_reserved cdata⟩

/-! ## The bits a command uses (R83, R85): each operand field of its row lies wholly within `usedBits` -/

theorem fieldOP_usedBits : ∀ op, fieldOP (usedBits op) = BitVec.allOnes 4 := by decide

theorem fieldTSEL_usedBits : ∀ op, op.toNat = 5 → fieldTSEL (usedBits op) = BitVec.allOnes 4 := by decide

theorem fieldPOS_usedBits : ∀ op, 2 ≤ op.toNat ∧ op.toNat ≤ 5 → fieldPOS (usedBits op) = BitVec.allOnes 8 := by decide

theorem fieldWID_usedBits :
    ∀ op, op.toNat = 0 ∨ op.toNat = 2 ∨ op.toNat = 3 → fieldWID (usedBits op) = BitVec.allOnes 8 := by decide

theorem fieldDSIZE_usedBits : ∀ op, op.toNat = 3 → fieldDSIZE (usedBits op) = BitVec.allOnes 8 := by decide

/-- Words that agree under a mask agree in every field the mask covers with ones. -/
theorem extractLsb'_eq_of_and_eq {h h' m : Header} {start len : Nat} (hand : h &&& m = h' &&& m)
    (hm : m.extractLsb' start len = BitVec.allOnes len) : h.extractLsb' start len = h'.extractLsb' start len := by
  have hfield := congrArg (BitVec.extractLsb' start len) hand
  rwa [BitVec.extractLsb'_and, BitVec.extractLsb'_and, hm, BitVec.and_allOnes, BitVec.and_allOnes] at hfield

/-- The decoder reads nothing but the bits its opcode uses, and the data word for FROM and INSERT only (R85). -/
theorem decode_eq_of_used_eq {hdr hdr' : Header} {cdata cdata' : Word}
    (hused : hdr &&& usedBits (fieldOP hdr) = hdr' &&& usedBits (fieldOP hdr))
    (hdata : hdr.toNat % 16 = 1 ∨ hdr.toNat % 16 = 3 → cdata = cdata') :
    decode hdr cdata = decode hdr' cdata' := by
  have hop : fieldOP hdr = fieldOP hdr' := extractLsb'_eq_of_and_eq hused (fieldOP_usedBits _)
  have hmod : hdr'.toNat % 16 = hdr.toNat % 16 := by rw [← fieldOP_toNat, ← fieldOP_toNat, hop]
  have hn := fieldOP_toNat hdr
  have hpos (h : 2 ≤ hdr.toNat % 16 ∧ hdr.toNat % 16 ≤ 5) : fieldPOS hdr = fieldPOS hdr' :=
    extractLsb'_eq_of_and_eq hused (fieldPOS_usedBits _ (hn ▸ h))
  have hwid (h : hdr.toNat % 16 = 0 ∨ hdr.toNat % 16 = 2 ∨ hdr.toNat % 16 = 3) : fieldWID hdr = fieldWID hdr' :=
    extractLsb'_eq_of_and_eq hused (fieldWID_usedBits _ (hn ▸ h))
  obtain h | h | h | h | h | h | h | h := op_cases hdr
  · rw [decode_of_op_new _ h, decode_of_op_new _ (hmod.trans h), hwid (.inl h)]
  · rw [decode_of_op_from _ h, decode_of_op_from _ (hmod.trans h), hdata (.inl h)]
  · rw [decode_of_op_add _ h, decode_of_op_add _ (hmod.trans h), hpos (by omega), hwid (.inr (.inl h))]
  · have hdsize : fieldDSIZE hdr = fieldDSIZE hdr' :=
      extractLsb'_eq_of_and_eq hused (fieldDSIZE_usedBits _ (hn.trans h))
    rw [decode_of_op_insert _ h, decode_of_op_insert _ (hmod.trans h), hpos (by omega), hwid (.inr (.inr h)), hdsize,
      hdata (.inr h)]
  · rw [decode_of_op_get _ h, decode_of_op_get _ (hmod.trans h), hpos (by omega)]
  · have htsel : fieldTSEL hdr = fieldTSEL hdr' :=
      extractLsb'_eq_of_and_eq hused (fieldTSEL_usedBits _ (hn.trans h))
    rw [decode_of_op_getAs _ h, decode_of_op_getAs _ (hmod.trans h), hpos (by omega), htsel]
  · rw [decode_of_op_getRaw _ h, decode_of_op_getRaw _ (hmod.trans h)]
  · rw [decode_of_op_reserved _ h, decode_of_op_reserved _ (h.trans_eq hmod.symm), hop]

/-- Settles O5: the two headers decode alike, and a command's effect is that of what it decodes to. -/
theorem unusedFieldsAreIgnored : Obligations.UnusedFieldsAreIgnored := by
  intro hdr hdr' cdata cdata' s hused hdata
  rw [Machine.perform, Machine.perform, decode_eq_of_used_eq hused hdata]

/-- Settles O6: each of the five encodings is evaluated, from the command to its words and back. -/
theorem workedEncodingsAgree : Obligations.WorkedEncodingsAgree := by
  unfold Obligations.WorkedEncodingsAgree
  decide

end Sys2Proof
end

section
/-! The construction commands (40_construction.md): the whole state a successful one leaves, and what the reads find in
it. -/

namespace Sys2Proof.Machine

/-! ## What a construction command leaves (R120, R122) -/

/-- A response without data: 0 fits in every width, so nothing is truncated (R86). -/
theorem writeResponse_zero (s : State) (st : Status) :
    s.writeResponse st 0 = { s with rspStatus := st, rspData := 0 } := by
  simp [State.writeResponse]

/-- The writes NEW and FROM have in common, as one record update: the word, the capacity, an empty table, and OK. -/
theorem constructionWrites_eq (s : State) (v n : Nat) :
    (((s.writeStorage v).writeNumbits n).clearEntries).writeResponse .ok 0 =
      { s with
        storage := trunc s.cfg.W v, numbits := BitVec.ofNat 8 n
        entry := List.replicate (s.cfg.W + 1) Entry.empty
        rspStatus := .ok, rspData := 0 } :=
  writeResponse_zero _ _

/-- Settles O34: the two cases of `execNew_cases`, each written out as a record update. -/
theorem newConstructsEmptySet : Obligations.NewConstructsEmptySet := by
  intro n s
  obtain ⟨hgt, e⟩ | ⟨hle, e⟩ := execNew_cases n s
  · refine ⟨fun hle => absurd hgt (Nat.not_lt.mpr hle), fun _ => ?_⟩
    rw [e, writeResponse_zero]
  · refine ⟨fun _ => ?_, fun hgt => absurd hgt (Nat.not_lt.mpr hle)⟩
    rw [e, constructionWrites_eq, trunc_zero, Entry.empty]

/-- Settles O35: a `W`-bit word passes the data port and the write of `STORAGE` unchanged. -/
theorem fromLoadsRawWord : Obligations.FromLoadsRawWord := by
  intro raw s _ hwf
  have hfit : raw.toNat < 2 ^ s.cfg.W := of_decide_eq_true hwf
  rw [execFrom_eq, trunc_of_lt hfit, constructionWrites_eq, trunc_of_lt hfit, Entry.empty]

/-! ## What the reads find afterwards (R123) -/

/-- A construction command that succeeds leaves every slot invalid with width 0. -/
theorem entryAt_eq_empty_of_construction_ok {i : Instr} {s t : State}
    (hi : (∃ n, i = .new n) ∨ ∃ raw, i = .fromRaw raw) (h : exec i s = .next t) (hok : t.rspStatus = .ok) (q : Nat) :
    t.entryAt q = Entry.empty := by
  obtain ⟨n, rfl⟩ | ⟨raw, rfl⟩ := hi
  · obtain ⟨-, e⟩ | ⟨-, e⟩ := execNew_cases n s
    · rw [e] at h; cases h
      rw [writeResponse_rspStatus] at hok
      exact absurd hok (by decide)
    · rw [e] at h; cases h
      rw [entryAt_writeResponse, entryAt_clearEntries]
  · rw [execFrom_eq] at h; cases h
    rw [entryAt_writeResponse, entryAt_clearEntries]

theorem registered_eq_false_of_entryAt_eq_empty {s : State} {p : Nat} (h : s.entryAt p = Entry.empty) :
    s.registered p = false := by
  simp [State.registered, h, Entry.empty]

/-- GET finds no field where none is registered (R171). -/
theorem execGet_of_not_registered {s : State} {pos : Byte} (h : s.registered pos.toNat = false) :
    exec (.get pos) s = .next { s with rspStatus := .absent, rspData := 0 } := by
  obtain ⟨hreg, -⟩ | ⟨-, e⟩ := execGet_cases pos s
  · exact absurd (h.symm.trans hreg) Bool.false_ne_true
  · rw [e, writeResponse_zero]

/-- GET_AS reports the missing field as a failed conversion, whatever the target type (R172). -/
theorem execGetAs_of_not_registered {s : State} {pos : Byte} (h : s.registered pos.toNat = false) (tsel : BitVec 4) :
    exec (.getAs pos tsel) s = .next { s with rspStatus := .tryFromError, rspData := 0 } := by
  obtain ⟨hreg, -, -⟩ | ⟨-, e⟩ := execGetAs_cases pos tsel s
  · exact absurd (h.symm.trans hreg) Bool.false_ne_true
  · rw [e, writeResponse_zero]

/-- Settles O36: every slot is empty after the command, so no position is registered for a read to find. -/
theorem constructionForgetsEveryField : Obligations.ConstructionForgetsEveryField := by
  intro i s t hi h hok
  have hempty : ∀ q, t.entryAt q = Entry.empty := entryAt_eq_empty_of_construction_ok hi h hok
  refine ⟨hempty, fun pos tsel => ?_⟩
  have hreg : t.registered pos.toNat = false := registered_eq_false_of_entryAt_eq_empty (hempty pos.toNat)
  exact ⟨execGet_of_not_registered hreg, execGetAs_of_not_registered hreg tsel⟩

end Sys2Proof.Machine
end

section
/-! The field write commands ADD and INSERT (41_field_write.md): the answer of each for every verdict of the checks, the
state a successful INSERT leaves, bit by bit and slot by slot, and what GET finds in it. -/

namespace Sys2Proof.Machine

/-! ## The verdicts that let a command pass -/

theorem oob_eq_false_iff (s : State) (pos width : Nat) : s.oob pos width = false ↔ pos + width ≤ s.numbits.toNat := by
  rw [← Bool.not_eq_true, oob_iff, not_lt]

theorem val_eq_false_of_lt {s : State} {data : Word} {width : Nat} (h : data.toNat < 2 ^ width) :
    s.val data width = false := by
  rw [← Bool.not_eq_true, val_iff]
  exact fun ⟨_, hle⟩ => absurd h (Nat.not_lt.mpr hle)

/-! ## The table with a field registered -/

theorem entryAt_writeEntry_byte {s : State} {p : Nat} (hp : p < s.entry.length) (w : Byte) (q : Nat) :
    (s.writeEntry p w.toNat).entryAt q = if q = p then ⟨true, w⟩ else s.entryAt q := by
  simp [entryAt_writeEntry hp]

/-! ## ADD, one equation per verdict (R144, R208) -/

section Add
variable {s : State} {pos wid : Byte}

theorem execAdd_of_oob (h : s.oob pos.toNat wid.toNat = true) :
    exec (.add pos wid) s = .next { s with rspStatus := .outOfBounds, rspData := 0 } := by
  simp [exec, execAdd, byteOperand, h, raise_eq_next]

theorem execAdd_of_ovl (hin : s.oob pos.toNat wid.toNat = false) (h : s.ovl pos.toNat wid.toNat = true) :
    exec (.add pos wid) s = .next { s with rspStatus := .wouldOverlap, rspData := 0 } := by
  simp [exec, execAdd, byteOperand, hin, h, raise_eq_next]

theorem execAdd_of_checks (hin : s.oob pos.toNat wid.toNat = false) (h : s.ovl pos.toNat wid.toNat = false) :
    exec (.add pos wid) s = .next ((s.writeEntry pos.toNat wid.toNat).writeResponse .ok 0) := by
  simp [exec, execAdd, byteOperand, hin, h, respond]

end Add

/-- Settles O37: each clause is the equation of its verdict, the verdict read through `oob_iff` and `ovl_iff`. -/
theorem addRegistersField : Obligations.AddRegistersField := by
  rintro pos wid s ⟨-, -, hcap, htab, -⟩
  refine ⟨fun hout => execAdd_of_oob ((oob_iff ..).mpr hout), fun hle hclaimed => ?_, fun hle hfree => ?_⟩
  · exact execAdd_of_ovl ((oob_eq_false_iff ..).mpr hle) ((ovl_iff ..).mpr hclaimed)
  · have hin : s.oob pos.toNat wid.toNat = false := (oob_eq_false_iff ..).mpr hle
    have hovl : s.ovl pos.toNat wid.toNat = false := Bool.eq_false_iff.mpr fun h => hfree ((ovl_iff ..).mp h)
    refine ⟨(s.writeEntry pos.toNat wid.toNat).entry, ?_, List.length_set,
      entryAt_writeEntry_byte (lt_length_of_oob_eq_false hcap htab hin) wid⟩
    rw [execAdd_of_checks hin hovl, writeResponse_zero]
    rfl

/-! ## INSERT, one equation per verdict (R145, R208) -/

/-- The state a successful INSERT leaves: the word, the slot and the response written (R145). -/
def State.afterInsert (s : State) (pos wid : Byte) (dat : Word) : State :=
  let data := trunc s.cfg.W dat.toNat
  ((s.writeStorage (s.insertedWord pos.toNat wid.toNat data).toNat).writeEntry pos.toNat wid.toNat).writeResponse .ok data

section Insert
variable {s : State} {pos wid dsize : Byte} {dat : Word}

theorem execInsert_of_oob (h : s.oob pos.toNat wid.toNat = true) :
    exec (.insert pos wid dsize dat) s = .next { s with rspStatus := .outOfBounds, rspData := 0 } := by
  simp [exec, execInsert, byteOperand, h, raise_eq_next]

theorem execInsert_of_tooLarge (hin : s.oob pos.toNat wid.toNat = false)
    (h : s.dtl dsize.toNat = true ∨ s.val (trunc s.cfg.W dat.toNat) wid.toNat = true) :
    exec (.insert pos wid dsize dat) s = .next { s with rspStatus := .dataTooLarge, rspData := 0 } := by
  obtain h | h := h
  · simp [exec, execInsert, byteOperand, hin, h, raise_eq_next]
  · simp [exec, execInsert, byteOperand, dataOperand, hin, h, raise_eq_next]

theorem execInsert_of_checks (hin : s.oob pos.toNat wid.toNat = false) (hdtl : s.dtl dsize.toNat = false)
    (hval : s.val (trunc s.cfg.W dat.toNat) wid.toNat = false) :
    exec (.insert pos wid dsize dat) s = .next (s.afterInsert pos wid dat) := by
  simp [exec, execInsert, byteOperand, dataOperand, hin, hdtl, hval, respond, State.afterInsert]

/-- An INSERT that answers OK has passed the bounds check and made its writes. -/
theorem eq_afterInsert_of_ok {t : State} (h : exec (.insert pos wid dsize dat) s = .next t) (hok : t.rspStatus = .ok) :
    pos.toNat + wid.toNat ≤ s.numbits.toNat ∧ t = s.afterInsert pos wid dat := by
  obtain ⟨-, e⟩ | ⟨-, -, e⟩ | ⟨hin, -, -, e⟩ := execInsert_cases pos wid dsize dat s
  · rw [e] at h; cases h
    exact absurd hok (by simp)
  · rw [e] at h; cases h
    exact absurd hok (by simp)
  · rw [e] at h; cases h
    exact ⟨(oob_eq_false_iff ..).mp hin, rfl⟩

end Insert

/-! ## The state a successful INSERT leaves -/

section AfterInsert
variable (s : State) (pos wid : Byte) (dat : Word)

@[simp] theorem afterInsert_cfg : (s.afterInsert pos wid dat).cfg = s.cfg := rfl
@[simp] theorem afterInsert_numbits : (s.afterInsert pos wid dat).numbits = s.numbits := rfl
@[simp] theorem afterInsert_rspStatus : (s.afterInsert pos wid dat).rspStatus = .ok := rfl
@[simp] theorem afterInsert_entry :
    (s.afterInsert pos wid dat).entry = s.entry.set pos.toNat ⟨true, wid⟩ := by
  simp [State.afterInsert]

variable {s pos wid dat}

/-- The slot at `pos` is replaced, whatever it held, and every other one stays (R146). -/
theorem entryAt_afterInsert (hp : pos.toNat < s.entry.length) (q : Nat) :
    (s.afterInsert pos wid dat).entryAt q = if q = pos.toNat then ⟨true, wid⟩ else s.entryAt q :=
  entryAt_writeEntry_byte hp wid q

/-- The word a successful INSERT leaves, bit by bit: of the data only the `W` bits of the port count, and of those the
ones the shift leaves below `W` (R145, R148). -/
theorem getLsbD_storage_afterInsert (hW : s.cfg.W ≤ maxW) (hs : s.StorageFits) (i : Nat) :
    (s.afterInsert pos wid dat).storage.getLsbD i = (decide (i < s.cfg.W) &&
      ((s.storage.getLsbD i && !(s.cfg.insertClear && decide (pos.toNat ≤ i ∧ i < pos.toNat + wid.toNat))) ||
        (decide (pos.toNat ≤ i) && dat.getLsbD (i - pos.toNat)))) := by
  rw [State.afterInsert, writeResponse_storage, writeEntry_storage, writeStorage_storage, getLsbD_trunc hW,
    BitVec.testBit_toNat, getLsbD_insertedWord hW hs, getLsbD_trunc hW, BitVec.testBit_toNat]
  by_cases hi : i < s.cfg.W
  · have hi' : i - pos.toNat < s.cfg.W := by omega
    simp [hi, hi']
  · simp [hi]

theorem storageFits_afterInsert (hW : s.cfg.W ≤ maxW) : (s.afterInsert pos wid dat).StorageFits :=
  trunc_lt hW _

/-- Data that fits the port is answered whole, unmasked: the next state is one record update (R145). -/
theorem afterInsert_eq_of_fits (hfit : dat.toNat < 2 ^ s.cfg.W) :
    s.afterInsert pos wid dat = { s with
      storage := (s.afterInsert pos wid dat).storage, entry := (s.afterInsert pos wid dat).entry
      rspStatus := .ok, rspData := dat } := by
  simp [State.afterInsert, State.writeStorage, State.writeEntry, State.writeResponse, trunc_of_lt hfit]

end AfterInsert

/-- Settles O38: each clause is the equation of its verdict; the word and the table of the third are those of
`afterInsert`. -/
theorem insertWritesAndRegistersField : Obligations.InsertWritesAndRegistersField := by
  rintro pos wid dsize data s ⟨⟨-, hW, -⟩, hst, hcap, htab, -⟩ hwf size tooWide
  have hfit : data.toNat < 2 ^ s.cfg.W := of_decide_eq_true hwf
  have hdtl : s.dtl dsize.toNat = true ↔ s.numbits.toNat < size := dtl_iff s dsize.toNat
  have hval : s.val (trunc s.cfg.W data.toNat) wid.toNat = true ↔ tooWide := by
    rw [trunc_of_lt hfit, val_iff]
  refine ⟨fun hout => execInsert_of_oob ((oob_iff ..).mpr hout), fun hle hlarge => ?_, fun hle hsize hnarrow => ?_⟩
  · exact execInsert_of_tooLarge ((oob_eq_false_iff ..).mpr hle) (hlarge.imp hdtl.mpr hval.mpr)
  · have hin : s.oob pos.toNat wid.toNat = false := (oob_eq_false_iff ..).mpr hle
    have hdtl' : s.dtl dsize.toNat = false := Bool.eq_false_iff.mpr fun h => Nat.not_lt.mpr hsize (hdtl.mp h)
    have hval' : s.val (trunc s.cfg.W data.toNat) wid.toNat = false :=
      Bool.eq_false_iff.mpr fun h => hnarrow (hval.mp h)
    exact ⟨(s.afterInsert pos wid data).storage, (s.afterInsert pos wid data).entry,
      (execInsert_of_checks hin hdtl' hval').trans (congrArg _ (afterInsert_eq_of_fits hfit)),
      getLsbD_storage_afterInsert hW hst, List.length_set,
      entryAt_afterInsert (lt_length_of_oob_eq_false hcap htab hin)⟩

/-! ## No overlap check (R146) -/

/-- Only ADD answers WOULD_OVERLAP: no other command looks for an overlap. -/
theorem eq_add_of_wouldOverlap {i : Instr} {s t : State} (h : exec i s = .next t)
    (hst : t.rspStatus = .wouldOverlap) : ∃ pos wid, i = .add pos wid := by
  cases i with
  | add pos wid => exact ⟨pos, wid, rfl⟩
  | insert pos wid dsize dat => exact absurd hst (execInsert_ne_wouldOverlap h)
  | new n => obtain ⟨-, e⟩ | ⟨-, e⟩ := execNew_cases n s <;> (rw [e] at h; cases h; simp at hst)
  | fromRaw raw => rw [execFrom_eq] at h; cases h; simp at hst
  | get pos => obtain ⟨-, e⟩ | ⟨-, e⟩ := execGet_cases pos s <;> (rw [e] at h; cases h; simp at hst)
  | getAs pos tsel => obtain ⟨-, -, e⟩ | ⟨-, e⟩ := execGetAs_cases pos tsel s <;> (rw [e] at h; cases h; simp at hst)
  | getRaw => rw [execGetRaw_eq] at h; cases h; simp at hst

/-- Settles O39: the three checks read the capacity and the configuration alone, so with any other table INSERT takes the
same case. -/
theorem insertIgnoresRegisteredFields : Obligations.InsertIgnoresRegisteredFields := by
  refine ⟨fun i s t => eq_add_of_wouldOverlap, fun pos wid dsize dat s t table h => ?_⟩
  obtain ⟨hout, e⟩ | ⟨hin, hlarge, e⟩ | ⟨hin, hdtl, hval, e⟩ := execInsert_cases pos wid dsize dat s
  · rw [e] at h; cases h
    exact ⟨_, execInsert_of_oob (s := { s with entry := table }) hout, rfl, by simp, rfl, fun hok => by simp at hok⟩
  · rw [e] at h; cases h
    exact ⟨_, execInsert_of_tooLarge (s := { s with entry := table }) hin hlarge, rfl, by simp, rfl,
      fun hok => by simp at hok⟩
  · rw [e] at h; cases h
    exact ⟨_, execInsert_of_checks (s := { s with entry := table }) hin hdtl hval, rfl, rfl, rfl,
      fun _ => ⟨afterInsert_entry .., afterInsert_entry ..⟩⟩

/-! ## Spill (R148) -/

/-- Settles O41: the bits of the word by `getLsbD_storage_afterInsert`, above the field, above the word and below `pos`. -/
theorem insertSpillsAboveItsField : Obligations.InsertSpillsAboveItsField := by
  rintro pos wid dsize data s t ⟨⟨-, hW, -⟩, hst, hcap, -⟩ h hok
  obtain ⟨hle, rfl⟩ := eq_afterInsert_of_ok h hok
  refine ⟨fun i hlo hhi => ?_, fun i hi => ?_, fun i hi => ?_⟩
  · have hpos : pos.toNat ≤ i := by omega
    simp [getLsbD_storage_afterInsert hW hst, hhi, hpos, Nat.not_lt.mpr hlo]
  · exact getLsbD_of_fits (storageFits_afterInsert hW) hi
  · have hiW : i < s.cfg.W := by omega
    simp [getLsbD_storage_afterInsert hW hst, hiW, Nat.not_le.mpr hi]

/-! ## GET after INSERT (R147, R149, R170) -/

/-- The extracted field is a `W`-bit word: the mask is one, and the shift goes down. -/
theorem extract_lt {s : State} (hW : s.cfg.W ≤ maxW) (p : Nat) : (s.extract p).toNat < 2 ^ s.cfg.W := by
  rw [State.extract, BitVec.toNat_ushiftRight, BitVec.toNat_and]
  calc _ ≤ s.storage.toNat &&& (mask s.cfg.W p (s.entryAt p).w.toNat).toNat := Nat.shiftRight_le _ _
    _ ≤ (mask s.cfg.W p (s.entryAt p).w.toNat).toNat := Nat.and_le_right
    _ < 2 ^ s.cfg.W := trunc_lt hW _

/-- GET answers the extracted field where one is registered (R171). -/
theorem execGet_of_registered {s : State} {pos : Byte} (hW : s.cfg.W ≤ maxW) (h : s.registered pos.toNat = true) :
    exec (.get pos) s = .next { s with rspStatus := .ok, rspData := s.extract pos.toNat } := by
  simp [exec, execGet, byteOperand, h, respond_eq_next, trunc_of_lt (extract_lt hW _)]

section ReadBack
variable {s u : State} {pos wid : Byte} {dat : Word}

/-- GET in a state that has kept the configuration and the inserted slot. -/
theorem execGet_of_inserted (hW : s.cfg.W ≤ maxW) (hle : pos.toNat + wid.toNat ≤ s.cfg.W) (hcfg : u.cfg = s.cfg)
    (hslot : u.entryAt pos.toNat = ⟨true, wid⟩) :
    exec (.get pos) u = .next { u with rspStatus := .ok, rspData := u.extract pos.toNat } := by
  refine execGet_of_registered (hcfg ▸ hW) ((registered_iff ..).mpr ⟨?_, by rw [hslot]⟩)
  rw [hcfg]
  exact Nat.le_of_add_right_le hle

/-- The field as GET finds it while word and slot are as INSERT left them: the data's bits, over the old ones unless
`INSERT_CLEAR` has cleared those (R147, R149). -/
theorem getLsbD_extract_of_inserted (hW : s.cfg.W ≤ maxW) (hs : s.StorageFits)
    (hle : pos.toNat + wid.toNat ≤ s.cfg.W) (hcfg : u.cfg = s.cfg)
    (hword : u.storage = (s.afterInsert pos wid dat).storage) (hslot : u.entryAt pos.toNat = ⟨true, wid⟩) (i : Nat) :
    (u.extract pos.toNat).getLsbD i = (decide (i < wid.toNat) &&
      ((s.storage.getLsbD (pos.toNat + i) && !s.cfg.insertClear) || dat.getLsbD i)) := by
  rw [getLsbD_extract (hcfg ▸ hW), hword, getLsbD_storage_afterInsert hW hs, hslot, hcfg]
  by_cases hi : i < wid.toNat
  · have hiW : pos.toNat + i < s.cfg.W := by omega
    simp [hi, hiW]
  · simp [hi]

end ReadBack

/-- Settles O40: GET finds the second value over the first INSERT's word, whose bits in the field are the first value over
the old ones. -/
theorem reinsertionKeepsStaleBits : Obligations.ReinsertionKeepsStaleBits := by
  rintro pos wid dsize dsize' a b s t u ⟨⟨-, hW, -⟩, hst, hcap, htab, -⟩ ha haok hb hbok
  obtain ⟨hle, rfl⟩ := eq_afterInsert_of_ok ha haok
  obtain ⟨-, rfl⟩ := eq_afterInsert_of_ok hb hbok
  have hleW : pos.toNat + wid.toNat ≤ s.cfg.W := hle.trans hcap
  have hp : pos.toNat < (s.afterInsert pos wid a).entry.length := by
    rw [afterInsert_entry, List.length_set]
    omega
  have hslot := entryAt_afterInsert (wid := wid) (dat := b) hp pos.toNat
  rw [if_pos rfl] at hslot
  refine ⟨_, execGet_of_inserted hW hleW rfl hslot, fun i hi => ?_⟩
  have hiW : pos.toNat + i < s.cfg.W := by omega
  rw [getLsbD_extract_of_inserted (s := s.afterInsert pos wid a) (dat := b) hW (storageFits_afterInsert hW) hleW
    (afterInsert_cfg ..) rfl hslot, getLsbD_storage_afterInsert hW hst]
  cases hclear : s.cfg.insertClear
  · simp [hi, hiW, hclear]
  · simp [hi, hclear]

/-- Settles O42: in the field no old bit is left, and the data has no bit outside it. -/
theorem insertedValueIsReadBack : Obligations.InsertedValueIsReadBack := by
  rintro pos wid dsize data s ⟨⟨-, hW, -⟩, hst, hcap, htab, -⟩ hle hfits hdtl hclear
  have hleW : pos.toNat + wid.toNat ≤ s.cfg.W := hle.trans hcap
  have hfitW : data.toNat < 2 ^ s.cfg.W := hfits.trans_le (Nat.pow_le_pow_right Nat.two_pos (by omega))
  have hval : s.val (trunc s.cfg.W data.toNat) wid.toNat = false := by
    rw [trunc_of_lt hfitW]
    exact val_eq_false_of_lt hfits
  refine ⟨_, execInsert_of_checks ((oob_eq_false_iff ..).mpr hle) hdtl hval, rfl, fun u hcfg hword hentry => ?_⟩
  have hslot : u.entryAt pos.toNat = ⟨true, wid⟩ := by
    rw [hentry, entryAt_afterInsert (by omega), if_pos rfl]
  have hdata : u.extract pos.toNat = data := by
    refine BitVec.eq_of_getLsbD_eq fun i _ => ?_
    rw [getLsbD_extract_of_inserted hW hst hleW hcfg hword hslot]
    by_cases hi : i < wid.toNat
    · obtain hc | hzero := hclear
      · simp [hi, hc]
      · simp [hi, hzero (pos.toNat + i) (by omega) (by omega)]
    · simp [hi, getLsbD_of_fits hfits (Nat.not_lt.mp hi)]
  rw [execGet_of_inserted hW hleW hcfg hslot, hdata]

end Sys2Proof.Machine
end

section
/-! The field reads (42_field_read.md): the extracted field by value, within its registered width, and the answer of
GET_AS for every verdict of the acceptance table. -/

namespace Sys2Proof.Machine

/-! ## The extracted field (R170, R176) -/

/-- Where `STORAGE` is a `W`-bit word, the mask's truncation drops no bit that is set (R31, R170). -/
theorem getLsbD_extract_of_storageFits {s : State} (hW : s.cfg.W ≤ maxW) (hs : s.StorageFits) (p i : Nat) :
    (s.extract p).getLsbD i = (decide (i < (s.entryAt p).w.toNat) && s.storage.getLsbD (p + i)) := by
  rw [getLsbD_extract hW]
  by_cases hi : p + i < s.cfg.W
  · simp [hi, Bool.and_comm]
  · simp [getLsbD_of_fits hs (Nat.not_lt.mp hi)]

/-- The extracted field by value, from its bits: division moves bit `p + i` to `i`, and the remainder keeps the bits
below the width (R170). -/
theorem extract_toNat {s : State} (hW : s.cfg.W ≤ maxW) (hs : s.StorageFits) (p : Nat) :
    (s.extract p).toNat = (s.storage.toNat / 2 ^ p) % 2 ^ (s.entryAt p).w.toNat := by
  refine Nat.eq_of_testBit_eq fun i => ?_
  rw [BitVec.testBit_toNat, getLsbD_extract_of_storageFits hW hs, Nat.testBit_mod_two_pow, Nat.testBit_div_two_pow,
    BitVec.testBit_toNat, Nat.add_comm i p]

/-- Truncation never increases a value, whatever the width. -/
theorem trunc_toNat_le (W v : Nat) : (trunc W v).toNat ≤ v := by
  rw [trunc, BitVec.toNat_ofNat]
  exact (Nat.mod_le _ _).trans (Nat.mod_le _ _)

/-- In every state, admitted or not, the mask lets at most the registered width through (R176). -/
theorem extract_lt_two_pow_width (s : State) (p : Nat) : (s.extract p).toNat < 2 ^ (s.entryAt p).w.toNat := by
  rw [State.extract, BitVec.toNat_ushiftRight, BitVec.toNat_and, Nat.shiftRight_eq_div_pow,
    Nat.div_lt_iff_lt_mul (Nat.two_pow_pos p)]
  calc _ ≤ (mask s.cfg.W p (s.entryAt p).w.toNat).toNat := Nat.and_le_right
    _ ≤ (2 ^ (s.entryAt p).w.toNat - 1) <<< p := trunc_toNat_le _ _
    _ = (2 ^ (s.entryAt p).w.toNat - 1) * 2 ^ p := Nat.shiftLeft_eq _ _
    _ < 2 ^ (s.entryAt p).w.toNat * 2 ^ p :=
      Nat.mul_lt_mul_of_pos_right (Nat.sub_lt (Nat.two_pow_pos _) Nat.one_pos) (Nat.two_pow_pos p)

/-! ## Where no field is registered (R171, R172) -/

theorem registered_eq_false_iff (s : State) (p : Nat) :
    s.registered p = false ↔ p > s.cfg.W ∨ (s.entryAt p).v = false := by
  rw [← Bool.not_eq_true, registered_iff, not_and_or, not_le, Bool.not_eq_true]

/-! ## GET_AS, one equation per verdict of the acceptance table (R172) -/

theorem execGetAs_of_accepted {s : State} {pos : Byte} {tsel : BitVec 4} (hW : s.cfg.W ≤ maxW)
    (h : s.registered pos.toNat = true) (hacc : typeAccepts s.cfg tsel (s.extract pos.toNat) = true) :
    exec (.getAs pos tsel) s = .next { s with rspStatus := .ok, rspData := s.extract pos.toNat } := by
  simp [exec, execGetAs, byteOperand, h, hacc, respond_eq_next, trunc_of_lt (extract_lt hW _)]

theorem execGetAs_of_rejected {s : State} {pos : Byte} {tsel : BitVec 4}
    (h : s.registered pos.toNat = true) (hrej : typeAccepts s.cfg tsel (s.extract pos.toNat) = false) :
    exec (.getAs pos tsel) s = .next { s with rspStatus := .tryFromError, rspData := 0 } := by
  simp [exec, execGetAs, byteOperand, h, hrej, raise_eq_next]

/-! ## GET and GET_AS -/

/-- Settles O47: GET answers the extracted field, by value `extract_toNat`, by bits `getLsbD_extract_of_storageFits`. -/
theorem getReadsExactlyTheFieldsBits : Obligations.GetReadsExactlyTheFieldsBits := by
  rintro pos s ⟨-, hW, -⟩ hs
  refine ⟨fun hle hv => ?_, fun hno => execGet_of_not_registered ((registered_eq_false_iff ..).mpr hno)⟩
  exact ⟨s.extract pos.toNat, execGet_of_registered hW ((registered_iff ..).mpr ⟨hle, hv⟩),
    extract_toNat hW hs pos.toNat, getLsbD_extract_of_storageFits hW hs pos.toNat⟩

/-- Settles O48: the value of GET is the extracted field, which GET_AS answers or rejects. -/
theorem getAsAnswersAcceptedValuesOnly : Obligations.GetAsAnswersAcceptedValuesOnly := by
  rintro pos tsel s ⟨-, hW, -⟩ hs
  refine ⟨fun hle hv => ?_, fun hno => execGetAs_of_not_registered ((registered_eq_false_iff ..).mpr hno) tsel⟩
  have hreg : s.registered pos.toNat = true := (registered_iff ..).mpr ⟨hle, hv⟩
  exact ⟨s.extract pos.toNat, extract_toNat hW hs pos.toNat, execGet_of_registered hW hreg,
    execGetAs_of_accepted hW hreg, execGetAs_of_rejected hreg⟩

/-- GET and GET_AS respond with the extracted field or with 0, in every state. -/
theorem fieldRead_responds {i : Instr} {pos : Byte} (hi : i = .get pos ∨ ∃ tsel, i = .getAs pos tsel) (s : State) :
    ∃ st d, exec i s = .next (s.writeResponse st d) ∧ (d = s.extract pos.toNat ∨ d = 0) := by
  obtain rfl | ⟨tsel, rfl⟩ := hi
  · obtain ⟨-, e⟩ | ⟨-, e⟩ := execGet_cases pos s
    · exact ⟨_, _, e, .inl rfl⟩
    · exact ⟨_, _, e, .inr rfl⟩
  · obtain ⟨-, -, e⟩ | ⟨-, e⟩ := execGetAs_cases pos tsel s
    · exact ⟨_, _, e, .inl rfl⟩
    · exact ⟨_, _, e, .inr rfl⟩

/-- Settles O50: either value is below the bound, and the write of the response register only truncates it. -/
theorem readsStayWithinRegisteredWidth : Obligations.ReadsStayWithinRegisteredWidth := by
  intro i pos s t hi h
  obtain ⟨st, d, e, hd⟩ := fieldRead_responds hi s
  rw [e] at h; cases h
  rw [writeResponse_rspData]
  refine (trunc_toNat_le _ _).trans_lt ?_
  obtain rfl | rfl := hd
  · exact extract_lt_two_pow_width s pos.toNat
  · exact Nat.two_pow_pos _

/-! ## GET_RAW and FROM (R122, R174) -/

/-- GET_RAW answers the whole word, which a `W`-bit response register holds untruncated. -/
theorem execGetRaw_of_storageFits {s : State} (hs : s.StorageFits) :
    exec .getRaw s = .next { s with rspStatus := .ok, rspData := s.storage } := by
  rw [execGetRaw_eq, State.writeResponse, trunc_of_lt hs]

/-- Settles O49: FROM of a word that fits, by `fromLoadsRawWord`, in the state GET_RAW leaves. -/
theorem getRawExportsAndFromReimports : Obligations.GetRawExportsAndFromReimports := by
  rintro s ⟨hadm, hs, -⟩
  have hwf : (Instr.fromRaw s.storage).wellFormed s.cfg.W = true := decide_eq_true hs
  have hW : s.cfg.W < 2 ^ 8 := hadm.2.1.trans_lt (by decide)
  refine ⟨_, execGetRaw_of_storageFits hs, rfl, _, fromLoadsRawWord _ _ hadm hwf, rfl, ?_, fun q => ?_⟩
  · exact (BitVec.toNat_ofNat ..).trans (Nat.mod_eq_of_lt hW)
  · exact getD_replicate_empty _ q

end Sys2Proof.Machine
end

section
/-! The response statuses (60_exceptions.md R200 to R207): when exactly each error is answered, and that a command
that does not end in OK leaves the state as it was. -/

namespace Sys2Proof.Machine

/-! ## A failing command writes the response registers only (R207) -/

/-- A command ends in OK, or in a response without data over the state it found: its checks precede its writes. -/
theorem exec_ok_or_eq_writeResponse {i : Instr} {s t : State} (h : exec i s = .next t) :
    t.rspStatus = .ok ∨ ∃ st, t = s.writeResponse st 0 := by
  cases i with
  | new n =>
    obtain ⟨-, e⟩ | ⟨-, e⟩ := execNew_cases n s
    · rw [e] at h; cases h; exact .inr ⟨_, rfl⟩
    · rw [e] at h; cases h; exact .inl rfl
  | fromRaw raw => rw [execFrom_eq] at h; cases h; exact .inl rfl
  | add pos wid =>
    obtain ⟨-, e⟩ | ⟨-, -, e⟩ | ⟨-, -, e⟩ := execAdd_cases pos wid s
    · rw [e] at h; cases h; exact .inr ⟨_, rfl⟩
    · rw [e] at h; cases h; exact .inr ⟨_, rfl⟩
    · rw [e] at h; cases h; exact .inl rfl
  | insert pos wid dsize dat =>
    obtain ⟨-, e⟩ | ⟨-, -, e⟩ | ⟨-, -, -, e⟩ := execInsert_cases pos wid dsize dat s
    · rw [e] at h; cases h; exact .inr ⟨_, rfl⟩
    · rw [e] at h; cases h; exact .inr ⟨_, rfl⟩
    · rw [e] at h; cases h; exact .inl rfl
  | get pos =>
    obtain ⟨-, e⟩ | ⟨-, e⟩ := execGet_cases pos s
    · rw [e] at h; cases h; exact .inl rfl
    · rw [e] at h; cases h; exact .inr ⟨_, rfl⟩
  | getAs pos tsel =>
    obtain ⟨-, -, e⟩ | ⟨-, e⟩ := execGetAs_cases pos tsel s
    · rw [e] at h; cases h; exact .inl rfl
    · rw [e] at h; cases h; exact .inr ⟨_, rfl⟩
  | getRaw => rw [execGetRaw_eq] at h; cases h; exact .inl rfl

/-- Settles O26: a decoded command by `exec_ok_or_eq_writeResponse`; a reserved opcode never writes more than the
response. -/
theorem failingCommandChangesNoState : Obligations.FailingCommandChangesNoState := by
  intro hdr cdata s t h hne
  obtain ⟨i, -, e⟩ | ⟨err, -, e⟩ := perform_cases hdr cdata s
  · obtain hok | ⟨st, rfl⟩ := exec_ok_or_eq_writeResponse (e.symm.trans h)
    · exact absurd hok hne
    · exact writeResponse_zero s st
  · rw [e] at h; cases h; rfl

/-! ## OUT_OF_BOUNDS (R201) -/

theorem execNew_outOfBounds_iff {n : Byte} {s t : State} (h : exec (.new n) s = .next t) :
    t.rspStatus = .outOfBounds ↔ s.cfg.W < n.toNat := by
  obtain ⟨hgt, e⟩ | ⟨hle, e⟩ := execNew_cases n s
  · rw [e] at h; cases h; simp [hgt]
  · rw [e] at h; cases h; simp [hle]

theorem execAdd_outOfBounds_iff {pos wid : Byte} {s t : State} (h : exec (.add pos wid) s = .next t) :
    t.rspStatus = .outOfBounds ↔ s.oob pos.toNat wid.toNat = true := by
  obtain ⟨hoob, e⟩ | ⟨hoob, -, e⟩ | ⟨hoob, -, e⟩ := execAdd_cases pos wid s
  all_goals
    rw [e] at h
    cases h
    simp [hoob]

theorem execInsert_outOfBounds_iff {pos wid dsize : Byte} {dat : Word} {s t : State}
    (h : exec (.insert pos wid dsize dat) s = .next t) :
    t.rspStatus = .outOfBounds ↔ s.oob pos.toNat wid.toNat = true := by
  obtain ⟨hoob, e⟩ | ⟨hoob, -, e⟩ | ⟨hoob, -, -, e⟩ := execInsert_cases pos wid dsize dat s
  all_goals
    rw [e] at h
    cases h
    simp [hoob]

/-- The bounds check as the rule writes it, the start position compared on its own (R140). -/
theorem oob_iff_or (s : State) (pos width : Nat) :
    s.oob pos width = true ↔ pos > s.numbits.toNat ∨ pos + width > s.numbits.toNat := by
  rw [oob_iff]
  omega

/-- Settles O43: the status of each command is its bounds check, whatever checks follow it. -/
theorem outOfBoundsExactlyWhenPastCapacity : Obligations.OutOfBoundsExactlyWhenPastCapacity :=
  ⟨fun _ _ _ h => execNew_outOfBounds_iff h,
    fun _ _ _ _ h => (execAdd_outOfBounds_iff h).trans (oob_iff_or ..),
    fun _ _ _ _ _ _ h => (execInsert_outOfBounds_iff h).trans (oob_iff_or ..)⟩

/-! ## WOULD_OVERLAP (R202) -/

/-- A registered field starts at a position with a slot (R33). -/
theorem le_W_of_valid {s : State} {p : Nat} (htab : s.TableShaped) (hv : (s.entryAt p).v = true) : p ≤ s.cfg.W := by
  by_contra hgt
  have hempty : s.entryAt p = Entry.empty := entryAt_of_length_le (by omega)
  rw [hempty] at hv
  exact absurd hv Bool.false_ne_true

/-- In a table of `W + 1` slots the overlap check ranges over every field that covers a bit; the field at `pos` itself,
which its strict clause leaves out, is found by the first clause (R141). -/
theorem ovl_iff_covers {s : State} (htab : s.TableShaped) (pos width : Nat) :
    s.ovl pos width = true ↔ (s.entryAt pos).v = true ∨
      (s.cfg.strictOverlap = true ∧ ∃ q i, s.Covers q i ∧ pos ≤ i ∧ i < pos + width) := by
  rw [ovl_iff]
  constructor
  · rintro (hv | ⟨hstrict, q, i, -, -, hshared⟩)
    · exact .inl hv
    · exact .inr ⟨hstrict, q, i, hshared⟩
  · rintro (hv | ⟨hstrict, q, i, hcov, hrange⟩)
    · exact .inl hv
    · by_cases hq : q = pos
      · exact .inl (hq ▸ hcov.1)
      · exact .inr ⟨hstrict, q, i, hq, le_W_of_valid htab hcov.1, hcov, hrange⟩

/-- What a header decodes to has the header's own opcode (R83). -/
theorem op_of_decode {hdr : Header} {cdata : Word} {i : Instr} (h : decode hdr cdata = .command i) :
    hdr.toNat % 16 = (opcode i).toNat := by
  obtain hop | hop | hop | hop | hop | hop | hop | hop := op_cases hdr
  · rw [decode_of_op_new _ hop] at h; cases h; exact hop
  · rw [decode_of_op_from _ hop] at h; cases h; exact hop
  · rw [decode_of_op_add _ hop] at h; cases h; exact hop
  · rw [decode_of_op_insert _ hop] at h; cases h; exact hop
  · rw [decode_of_op_get _ hop] at h; cases h; exact hop
  · rw [decode_of_op_getAs _ hop] at h; cases h; exact hop
  · rw [decode_of_op_getRaw _ hop] at h; cases h; exact hop
  · rw [decode_of_op_reserved _ hop] at h; cases h

/-- Settles O44: within bounds the status of ADD is its overlap check, and only a header that decodes to ADD has it. -/
theorem wouldOverlapExactly : Obligations.WouldOverlapExactly := by
  constructor
  · rintro pos wid s t ⟨-, -, -, htab, -⟩ hle h
    rw [execAdd_wouldOverlap_iff h, ovl_iff_covers htab, and_iff_right ((oob_eq_false_iff ..).mpr hle)]
  · intro hdr cdata s t h hst
    obtain ⟨i, hdec, e⟩ | ⟨err, -, e⟩ := perform_cases hdr cdata s
    · obtain ⟨pos, wid, rfl⟩ := eq_add_of_wouldOverlap (e.symm.trans h) hst
      exact op_of_decode hdec
    · rw [e] at h; cases h; cases hst

/-! ## DATA_TOO_LARGE (R203) -/

theorem execInsert_dataTooLarge_iff {pos wid dsize : Byte} {dat : Word} {s t : State}
    (h : exec (.insert pos wid dsize dat) s = .next t) :
    t.rspStatus = .dataTooLarge ↔ s.oob pos.toNat wid.toNat = false ∧
      (s.dtl dsize.toNat = true ∨ s.val (trunc s.cfg.W dat.toNat) wid.toNat = true) := by
  obtain ⟨hoob, e⟩ | ⟨hoob, hlarge, e⟩ | ⟨-, hdtl, hval, e⟩ := execInsert_cases pos wid dsize dat s
  · rw [e] at h; cases h; simp [hoob]
  · rw [e] at h; cases h; simp [hoob, hlarge]
  · rw [e] at h; cases h; simp [hdtl, hval]

/-- The type-size check, a clause per unit (R142). -/
theorem dtl_iff_or (s : State) (dsize : Nat) :
    s.dtl dsize = true ↔ (s.cfg.dtlUnit = .bytes ∧ dsize > s.numbits.toNat) ∨
      (s.cfg.dtlUnit = .bits ∧ 8 * dsize > s.numbits.toNat) := by
  rw [dtl_iff]
  cases s.cfg.dtlUnit <;> simp

/-- Settles O45: within bounds the status is the two size checks, and the port takes nothing off a `W`-bit word. -/
theorem dataTooLargeExactly : Obligations.DataTooLargeExactly := by
  intro pos wid dsize data s t _ hwf hle h
  have hfit : data.toNat < 2 ^ s.cfg.W := of_decide_eq_true hwf
  rw [execInsert_dataTooLarge_iff h, and_iff_right ((oob_eq_false_iff ..).mpr hle), trunc_of_lt hfit, dtl_iff_or,
    val_iff, or_assoc]

/-! ## TRY_FROM_ERROR (R204) -/

theorem execGetAs_tryFromError_iff {pos : Byte} {tsel : BitVec 4} {s t : State}
    (h : exec (.getAs pos tsel) s = .next t) :
    t.rspStatus = .tryFromError ↔
      s.registered pos.toNat = false ∨ typeAccepts s.cfg tsel (s.extract pos.toNat) = false := by
  obtain ⟨hreg, hacc, e⟩ | ⟨hbad, e⟩ := execGetAs_cases pos tsel s
  · rw [e] at h; cases h; simp [hreg, hacc]
  · rw [e] at h; cases h; simp [hbad]

/-- Settles O51: where a field is registered, the value GET answers is the one GET_AS gives to the target type. -/
theorem tryFromErrorExactly : Obligations.TryFromErrorExactly := by
  rintro pos tsel s g t ⟨⟨-, hW, -⟩, -⟩ hget h
  rw [execGetAs_tryFromError_iff h, ← or_assoc, ← registered_eq_false_iff]
  cases hreg : s.registered pos.toNat
  · simp
  · rw [execGet_of_registered hW hreg] at hget
    cases hget
    rfl

end Sys2Proof.Machine
end

section
/-! Responses along a run of edges (30_encoding.md R80, 70_reset_and_hazards.md R231, R237). The block holds at most one
command, so an edge without a reset only moves a response between three places: accepted, in flight, delivered. A reset
edge empties the second. Both facts about one edge carry over to any number of edges by induction. -/

namespace Sys2Proof.Machine

/-! ## Every edge of a block that can be built answers a next state (R209) -/

theorem exec_eq_next (i : Instr) (s : State) : ∃ t, exec i s = .next t := by
  cases i with
  | new n => obtain ⟨-, e⟩ | ⟨-, e⟩ := execNew_cases n s <;> exact ⟨_, e⟩
  | fromRaw raw => exact ⟨_, execFrom_eq raw s⟩
  | add pos wid => obtain ⟨-, e⟩ | ⟨-, -, e⟩ | ⟨-, -, e⟩ := execAdd_cases pos wid s <;> exact ⟨_, e⟩
  | insert pos wid dsize dat =>
    obtain ⟨-, e⟩ | ⟨-, -, e⟩ | ⟨-, -, -, e⟩ := execInsert_cases pos wid dsize dat s <;> exact ⟨_, e⟩
  | get pos => obtain ⟨-, e⟩ | ⟨-, e⟩ := execGet_cases pos s <;> exact ⟨_, e⟩
  | getAs pos tsel => obtain ⟨-, -, e⟩ | ⟨-, e⟩ := execGetAs_cases pos tsel s <;> exact ⟨_, e⟩
  | getRaw => exact ⟨_, execGetRaw_eq s⟩

theorem perform_eq_next (hdr : Header) (cdata : Word) (s : State) : ∃ t, perform hdr cdata s = .next t := by
  obtain ⟨i, -, e⟩ | ⟨err, -, e⟩ := perform_cases hdr cdata s
  · rw [e]; exact exec_eq_next i s
  · exact ⟨_, e⟩

/-- A reserved opcode shares the frame of the commands, `exec_ports_frame`. -/
theorem perform_ports_frame {hdr : Header} {cdata : Word} {s t : State} (h : perform hdr cdata s = .next t) :
    t.cfg = s.cfg ∧ t.phase = s.phase ∧ t.inputs = s.inputs := by
  obtain ⟨i, -, e⟩ | ⟨err, -, e⟩ := perform_cases hdr cdata s
  · exact exec_ports_frame (e.symm.trans h)
  · rw [e] at h; cases h; exact ⟨rfl, rfl, rfl⟩

theorem step_eq_next {s : State} (ha : s.cfg.Admitted) : ∃ t, step s = .next t := by
  cases hf : s.fetch with
  | none => exact ⟨_, step_of_no_fetch ha hf⟩
  | some c => rw [step_of_fetch ha hf]; exact perform_eq_next c.1 c.2 _

/-- Every edge keeps the configuration (R38) and uses up one level of the pins. -/
theorem step_frame {s t : State} (h : step s = .next t) : t.cfg = s.cfg ∧ t.inputs = s.inputs.tail := by
  obtain ⟨-, ⟨hdr, cdata, -, hp⟩ | ⟨-, rfl⟩⟩ := step_cases h
  · obtain ⟨hcfg, -, hins⟩ := perform_ports_frame hp
    exact ⟨hcfg, hins⟩
  · exact ⟨otherEdge_cfg s, otherEdge_inputs s⟩

/-! ## One edge, then the rest of the run -/

theorem run_succ_of_step {s t : State} (h : step s = .next t) (k : Nat) : run (k + 1) s = run k t := by
  simp only [run, h]

theorem acceptedIn_succ_of_step {s t : State} (h : step s = .next t) (k : Nat) :
    acceptedIn (k + 1) s = s.accepted ++ acceptedIn k t := by simp only [acceptedIn, h]

theorem deliveredIn_succ_of_step {s t : State} (h : step s = .next t) (k : Nat) :
    deliveredIn (k + 1) s = s.delivered ++ deliveredIn k t := by simp only [deliveredIn, h]

/-- A run of `k + 1` edges that answers a next state is a step and a run of `k` edges that do. -/
theorem step_run_of_run_succ {k : Nat} {s t : State} (h : run (k + 1) s = .next t) :
    ∃ u, step s = .next u ∧ run k u = .next t := by
  cases hs : step s with
  | next u => exact ⟨u, rfl, run_succ_of_step hs k ▸ h⟩
  | fault r => simp [run, hs] at h
  | refused r => simp [run, hs] at h

theorem run_eq_next (k : Nat) {s : State} (ha : s.cfg.Admitted) : ∃ t, run k s = .next t := by
  induction k generalizing s with
  | zero => exact ⟨s, rfl⟩
  | succ k ih =>
    obtain ⟨u, hu⟩ := step_eq_next ha
    rw [run_succ_of_step hu]
    exact ih ((step_frame hu).1 ▸ ha)

/-- Without a reset among the next `k + 1` levels of the pins there is none at the next edge, nor at the `k` after it. -/
theorem no_rst_succ {k : Nat} {s : State} (h : ∀ p ∈ s.inputs.take (k + 1), p.rst = false) :
    s.pins.rst = false ∧ ∀ p ∈ s.inputs.tail.take k, p.rst = false := by
  unfold State.pins
  cases hi : s.inputs with
  | nil => exact ⟨rfl, by simp⟩
  | cons q qs => rw [hi, List.take_succ_cons, List.forall_mem_cons] at h; exact h

/-! ## What one edge accepts, delivers and leaves in flight -/

theorem inFlight_of_idle {s : State} (h : s.phase = .idle) : s.inFlight = [] := by
  simp [State.inFlight, h, Phase.isIdle]

theorem inFlight_of_busy {s : State} (h : s.phase ≠ .idle) : s.inFlight = [⟨s.rspStatus, s.rspData⟩] := by
  cases hp : s.phase with
  | idle => exact absurd hp h
  | computing left => simp [State.inFlight, hp, Phase.isIdle]
  | responding => simp [State.inFlight, hp, Phase.isIdle]

theorem afterAccept_ne_idle (latency : Nat) : Phase.afterAccept latency ≠ .idle := by
  unfold Phase.afterAccept; split <;> nofun

theorem accepted_of_no_fetch {s : State} (h : s.fetch = none) : s.accepted = [] := by
  simp only [State.accepted, h]

theorem accepted_of_fetch {s t : State} {hdr : Header} {cdata : Word} (hf : s.fetch = some (hdr, cdata))
    (hp : perform hdr cdata s.acceptEdge = .next t) : s.accepted = [⟨t.rspStatus, t.rspData⟩] := by
  simp only [State.accepted, hf, hp, responseOf]

theorem delivered_of_rst {s : State} (h : s.pins.rst = true) : s.delivered = [] := by
  simp [State.delivered, State.transfer, State.rspPort, State.rspValid, h]

theorem delivered_of_not_responding {s : State} (h : s.phase ≠ .responding) : s.delivered = [] := by
  cases hp : s.phase with
  | responding => exact absurd hp h
  | idle => simp [State.delivered, State.transfer, State.rspPort, State.rspValid, hp, Phase.isResponding]
  | computing left => simp [State.delivered, State.transfer, State.rspPort, State.rspValid, hp, Phase.isResponding]

theorem delivered_of_responding {s : State} (hr : s.pins.rst = false) (h : s.phase = .responding) :
    s.delivered = if s.pins.rspReady then [⟨s.rspStatus, s.rspData⟩] else [] := by
  cases hrdy : s.pins.rspReady <;>
    simp [State.delivered, State.transfer, State.rspPort, State.rspValid, hr, h, hrdy, Phase.isResponding]

/-- An edge that neither resets nor accepts: the response in flight is delivered or is still in flight. -/
theorem inFlight_eq_delivered_append_otherEdge {s : State} (hr : s.pins.rst = false) :
    s.inFlight = s.delivered ++ s.otherEdge.inFlight := by
  rw [otherEdge_of_no_rst hr]
  cases hp : s.phase with
  | idle => rw [inFlight_of_idle hp, delivered_of_not_responding (by simp [hp])]; rfl
  | computing left =>
    rw [inFlight_of_busy (by simp [hp]), delivered_of_not_responding (by simp [hp]), inFlight_of_busy]
    · rfl
    · simp only [Phase.afterEdge]; split <;> nofun
  | responding =>
    rw [inFlight_of_busy (by simp [hp]), delivered_of_responding hr hp]
    cases s.pins.rspReady <;> rfl

/-- An accepting edge: the block was idle, so nothing was in flight or delivered, and the new response is in flight. -/
theorem step_conserves_responses_of_fetch {s t : State} {hdr : Header} {cdata : Word}
    (hf : s.fetch = some (hdr, cdata)) (hp : perform hdr cdata s.acceptEdge = .next t) :
    s.inFlight ++ s.accepted = s.delivered ++ t.inFlight := by
  obtain ⟨-, hidle, -⟩ := (fetch_eq_some_iff s hdr cdata).mp hf
  obtain ⟨-, hphase, -⟩ := perform_ports_frame hp
  have hbusy : t.phase ≠ .idle := hphase ▸ afterAccept_ne_idle s.cfg.latency
  rw [inFlight_of_idle hidle, accepted_of_fetch hf hp, delivered_of_not_responding (by simp [hidle]),
    inFlight_of_busy hbusy]

theorem step_conserves_responses {s t : State} (hr : s.pins.rst = false) (h : step s = .next t) :
    s.inFlight ++ s.accepted = s.delivered ++ t.inFlight := by
  obtain ⟨-, ⟨hdr, cdata, hf, hp⟩ | ⟨hf, rfl⟩⟩ := step_cases h
  · exact step_conserves_responses_of_fetch hf hp
  · rw [accepted_of_no_fetch hf, List.append_nil, inFlight_eq_delivered_append_otherEdge hr]

/-- A reset edge delivers nothing and leaves nothing in flight (R231); every other edge conserves the responses. -/
theorem step_responses_sublist {s t : State} (h : step s = .next t) :
    (s.delivered ++ t.inFlight).Sublist (s.inFlight ++ s.accepted) := by
  cases hr : s.pins.rst with
  | false => rw [step_conserves_responses hr h]
  | true =>
    obtain ⟨-, ⟨hdr, cdata, hf, -⟩ | ⟨-, rfl⟩⟩ := step_cases h
    · rw [fetch_eq_none_of_rst hr] at hf; cases hf
    · rw [delivered_of_rst hr, otherEdge_of_rst hr, inFlight_of_idle (resetOf_phase ..)]
      exact List.nil_sublist _

/-! ## Any number of edges -/

theorem run_conserves_responses {k : Nat} {s t : State} (hr : ∀ p ∈ s.inputs.take k, p.rst = false)
    (h : run k s = .next t) : s.inFlight ++ acceptedIn k s = deliveredIn k s ++ t.inFlight := by
  induction k generalizing s with
  | zero => cases h; simp [acceptedIn, deliveredIn]
  | succ k ih =>
    obtain ⟨u, hstep, hrun⟩ := step_run_of_run_succ h
    obtain ⟨hnow, hlater⟩ := no_rst_succ hr
    have hrest := ih ((step_frame hstep).2 ▸ hlater) hrun
    calc s.inFlight ++ acceptedIn (k + 1) s
      _ = (s.inFlight ++ s.accepted) ++ acceptedIn k u := by
          rw [acceptedIn_succ_of_step hstep, List.append_assoc]
      _ = s.delivered ++ (u.inFlight ++ acceptedIn k u) := by
          rw [step_conserves_responses hnow hstep, List.append_assoc]
      _ = deliveredIn (k + 1) s ++ t.inFlight := by
          rw [hrest, deliveredIn_succ_of_step hstep, List.append_assoc]

/-- With resets, what is delivered and what is still in flight at the end is a subsequence of what was in flight at the
start and what was accepted. -/
theorem run_responses_sublist {k : Nat} {s t : State} (h : run k s = .next t) :
    (deliveredIn k s ++ t.inFlight).Sublist (s.inFlight ++ acceptedIn k s) := by
  induction k generalizing s with
  | zero => cases h; simp [acceptedIn, deliveredIn]
  | succ k ih =>
    obtain ⟨u, hstep, hrun⟩ := step_run_of_run_succ h
    have hrest : (s.delivered ++ (deliveredIn k u ++ t.inFlight)).Sublist
        (s.delivered ++ (u.inFlight ++ acceptedIn k u)) := (ih hrun).append_left _
    have hnow : ((s.delivered ++ u.inFlight) ++ acceptedIn k u).Sublist
        ((s.inFlight ++ s.accepted) ++ acceptedIn k u) := (step_responses_sublist hstep).append_right _
    rw [acceptedIn_succ_of_step hstep, deliveredIn_succ_of_step hstep, List.append_assoc, ← List.append_assoc s.inFlight]
    exact hrest.trans (List.append_assoc .. ▸ hnow)

/-- Settles O16: by induction on the edges, from conservation at one edge without a reset and the subsequence at any; for
the deliveries the response still in flight at the end is dropped. -/
theorem responsesLeaveInCommandOrder : Obligations.ResponsesLeaveInCommandOrder := by
  intro k s ha
  obtain ⟨t, ht⟩ := run_eq_next k ha
  exact ⟨t, ht, fun hr => run_conserves_responses hr ht,
    (List.sublist_append_left _ _).trans (run_responses_sublist ht)⟩

end Sys2Proof.Machine
end

section
/-! The encoder (30_encoding.md R81 to R85, R89): a packed header as a number, the header bits a command uses field by
field, and the two directions between a command and its words. -/

namespace Sys2Proof

/-! ## A packed header as a number (R89) -/

/-- A field shifted to its place loses no bit where its width and the shift fit the header. -/
theorem toNat_setWidth_shiftLeft {w k : Nat} (x : BitVec w) (hk : w + k ≤ 32) :
    (x.setWidth 32 <<< k).toNat = x.toNat <<< k := by
  have hx : x.toNat < 2 ^ 32 := x.isLt.trans_le (Nat.pow_le_pow_right Nat.two_pos (by omega))
  have hshift : x.toNat <<< k < 2 ^ 32 := by
    rw [Nat.shiftLeft_eq]
    calc x.toNat * 2 ^ k < 2 ^ w * 2 ^ k := Nat.mul_lt_mul_of_pos_right x.isLt (Nat.two_pow_pos k)
      _ = 2 ^ (w + k) := (Nat.pow_add ..).symm
      _ ≤ 2 ^ 32 := Nat.pow_le_pow_right Nat.two_pos hk
  rw [BitVec.toNat_shiftLeft, BitVec.toNat_setWidth, Nat.mod_eq_of_lt hx, Nat.mod_eq_of_lt hshift]

theorem packHeader_toNat (op tsel : BitVec 4) (pos wid dsize : Byte) :
    (packHeader op tsel pos wid dsize).toNat =
      (dsize.toNat <<< 24) ||| (wid.toNat <<< 16) ||| (pos.toNat <<< 8) ||| (tsel.toNat <<< 4) ||| op.toNat := by
  have hop : (op.setWidth 32).toNat = op.toNat := BitVec.toNat_setWidth_of_le (by omega)
  simp only [packHeader, BitVec.toNat_or]
  rw [toNat_setWidth_shiftLeft dsize le_rfl, toNat_setWidth_shiftLeft wid (by omega),
    toNat_setWidth_shiftLeft pos (by omega), toNat_setWidth_shiftLeft tsel (by omega), hop]

/-- Settles O3: `packHeader_toNat`, the fields a command does not write being 0. -/
theorem encodedHeaderFollowsFormula : Obligations.EncodedHeaderFollowsFormula := by
  refine ⟨fun n => ?_, fun raw => ⟨rfl, rfl⟩, fun pos wid => ?_, fun pos wid dsize dat => ⟨?_, rfl⟩, fun pos => ?_,
    fun pos tsel => ?_, rfl⟩
  all_goals
    simp only [encode, packHeader_toNat]
    simp

/-! ## From a command to its words and back (R83, R89) -/

theorem packHeader_op (op tsel : BitVec 4) (pos wid dsize : Byte) :
    (packHeader op tsel pos wid dsize).toNat % 16 = op.toNat := by
  rw [← fieldOP_toNat, fieldOP_packHeader]

/-- Settles O1: the encoded header selects the command's own row, whose operand fields are those packed; a `W`-bit port
takes nothing off the data word. -/
theorem decodeOfEncodeGivesCommandBack : Obligations.DecodeOfEncodeGivesCommandBack := by
  intro W _ i hwf
  cases i with
  | new nbits => rw [encode, decode_of_op_new _ (packHeader_op ..), fieldWID_packHeader]
  | fromRaw raw =>
    have hfit : raw.toNat < 2 ^ W := of_decide_eq_true hwf
    rw [encode, decode_of_op_from _ (packHeader_op ..), Machine.trunc_of_lt hfit]
  | add pos wid => rw [encode, decode_of_op_add _ (packHeader_op ..), fieldPOS_packHeader, fieldWID_packHeader]
  | insert pos wid dsize dat =>
    have hfit : dat.toNat < 2 ^ W := of_decide_eq_true hwf
    rw [encode, decode_of_op_insert _ (packHeader_op ..), fieldPOS_packHeader, fieldWID_packHeader,
      fieldDSIZE_packHeader, Machine.trunc_of_lt hfit]
  | get pos => rw [encode, decode_of_op_get _ (packHeader_op ..), fieldPOS_packHeader]
  | getAs pos tsel => rw [encode, decode_of_op_getAs _ (packHeader_op ..), fieldPOS_packHeader, fieldTSEL_packHeader]
  | getRaw => rw [encode, decode_of_op_getRaw _ (packHeader_op ..)]

/-! ## The bits a command uses (R83, R85) -/

/-- The "operands used" column of R83, one field of the header at a time. -/
theorem usedBits_eq_packHeader : ∀ op, usedBits op = packHeader (BitVec.allOnes 4)
    (if op = 5 then BitVec.allOnes 4 else 0)
    (if op = 2 ∨ op = 3 ∨ op = 4 ∨ op = 5 then BitVec.allOnes 8 else 0)
    (if op = 0 ∨ op = 2 ∨ op = 3 then BitVec.allOnes 8 else 0)
    (if op = 3 then BitVec.allOnes 8 else 0) := by decide

/-- A mask acts on a header field by field. -/
theorem and_eq_packHeader (h m : Header) :
    h &&& m = packHeader (fieldOP h &&& fieldOP m) (fieldTSEL h &&& fieldTSEL m) (fieldPOS h &&& fieldPOS m)
      (fieldWID h &&& fieldWID m) (fieldDSIZE h &&& fieldDSIZE m) := by
  rw [← packHeader_fields (h &&& m)]
  simp only [fieldOP, fieldTSEL, fieldPOS, fieldWID, fieldDSIZE, BitVec.extractLsb'_and]

theorem and_ite_allOnes {w : Nat} (c : Prop) [Decidable c] (x : BitVec w) :
    (x &&& if c then BitVec.allOnes w else 0) = if c then x else 0 := by
  split
  · exact BitVec.and_allOnes
  · exact BitVec.and_zero

/-- A header with the bits its opcode does not use set to 0: each field is kept or is 0. -/
theorem and_usedBits_eq_packHeader (h : Header) (op : BitVec 4) :
    h &&& usedBits op = packHeader (fieldOP h) (if op = 5 then fieldTSEL h else 0)
      (if op = 2 ∨ op = 3 ∨ op = 4 ∨ op = 5 then fieldPOS h else 0)
      (if op = 0 ∨ op = 2 ∨ op = 3 then fieldWID h else 0) (if op = 3 then fieldDSIZE h else 0) := by
  rw [and_eq_packHeader, usedBits_eq_packHeader]
  simp only [fieldOP_packHeader, fieldTSEL_packHeader, fieldPOS_packHeader, fieldWID_packHeader, fieldDSIZE_packHeader,
    and_ite_allOnes, BitVec.and_allOnes]

theorem fieldOP_of_decode {hdr : Header} {cdata : Word} {i : Instr} (h : decode hdr cdata = .command i) :
    fieldOP hdr = opcode i :=
  BitVec.eq_of_toNat_eq ((fieldOP_toNat hdr).trans (Machine.op_of_decode h))

/-- Settles O2: the header's row gives the command's operands, and the row's used fields are the ones it encodes. -/
theorem encodeOfDecodeKeepsUsedBits : Obligations.EncodeOfDecodeKeepsUsedBits := by
  intro hdr cdata i h
  have hop : fieldOP hdr = opcode i := fieldOP_of_decode h
  have hrow : hdr.toNat % 16 = (opcode i).toNat := Machine.op_of_decode h
  refine ⟨hop.symm, ?_⟩
  rw [and_usedBits_eq_packHeader, hop]
  cases i with
  | new nbits => rw [decode_of_op_new _ hrow] at h; cases h; exact ⟨rfl, rfl⟩
  | fromRaw raw => rw [decode_of_op_from _ hrow] at h; cases h; exact ⟨rfl, rfl⟩
  | add pos wid => rw [decode_of_op_add _ hrow] at h; cases h; exact ⟨rfl, rfl⟩
  | insert pos wid dsize dat => rw [decode_of_op_insert _ hrow] at h; cases h; exact ⟨rfl, rfl⟩
  | get pos => rw [decode_of_op_get _ hrow] at h; cases h; exact ⟨rfl, rfl⟩
  | getAs pos tsel => rw [decode_of_op_getAs _ hrow] at h; cases h; exact ⟨rfl, rfl⟩
  | getRaw => rw [decode_of_op_getRaw _ hrow] at h; exact ⟨rfl, rfl⟩

/-! ## The assembler (R89) -/

/-- Settles O7: each line is assembled by evaluation. -/
theorem assembledLinesGiveWorkedEncodings : Obligations.AssembledLinesGiveWorkedEncodings := by
  unfold Obligations.AssembledLinesGiveWorkedEncodings
  decide

end Sys2Proof
end

section
/-! The invariant of the block (10_state.md R31 to R35, 30_encoding.md R86): it holds after reset, every write a command
makes keeps it, so every command and every edge does. -/

namespace Sys2Proof.Machine

/-! ## After reset (R230) -/

/-- The capacity register holds the width of every block that can be built (R7, R32). -/
theorem toNat_ofNat_of_le_maxW {n : Nat} (h : n ≤ maxW) : (BitVec.ofNat 8 n).toNat = n :=
  (BitVec.toNat_ofNat ..).trans (Nat.mod_eq_of_lt (h.trans_lt (by decide)))

theorem resetOf_inv {c : Config} (hc : c.Admitted) (ins : List PortInput) : (State.resetOf c ins).Inv := by
  refine ⟨hc, Nat.two_pow_pos _, ?_, List.length_replicate, fun p _ hv => ?_, fun p _ _ => ?_, Nat.two_pow_pos _,
    fun _ => rfl, rfl⟩
  · rw [State.CapacityFits, resetOf_numbits, resetOf_cfg, toNat_ofNat_of_le_maxW hc.2.1]
  · rw [entryAt_resetOf] at hv
    exact absurd hv Bool.false_ne_true
  · rw [entryAt_resetOf]
    rfl

/-- Settles O20: the reset state of any block, and so that of `COMPAT`. -/
theorem resetMeetsInvariant : Obligations.ResetMeetsInvariant :=
  ⟨fun _ ins hc => resetOf_inv hc ins, resetOf_inv (by decide) []⟩

/-- Settles O12: the reset state of `COMPAT` is evaluated. -/
theorem resetStateOfCompat : Obligations.ResetStateOfCompat := by
  unfold Obligations.ResetStateOfCompat
  decide

/-! ## Every register write keeps it -/

theorem inv_writeResponse {s : State} (hs : s.Inv) {st : Status} {d : Word} (hd : st ≠ .ok → d = 0) :
    (s.writeResponse st d).Inv := by
  obtain ⟨hadm, hst, hcap, htab, hin, hempty, -, -, hph⟩ := hs
  refine ⟨hadm, hst, hcap, htab, hin, hempty, trunc_lt hadm.2.1 _, fun hne => ?_, hph⟩
  rw [writeResponse_rspData, hd hne]
  exact trunc_zero _

theorem inv_writeStorage {s : State} (hs : s.Inv) (v : Nat) : (s.writeStorage v).Inv := by
  obtain ⟨hadm, -, hrest⟩ := hs
  exact ⟨hadm, trunc_lt hadm.2.1 _, hrest⟩

/-- A new capacity up to `W`, once no field is left that could exceed it (R120, R122). -/
theorem inv_clearEntries_writeNumbits {s : State} (hs : s.Inv) {n : Nat} (hn : n ≤ s.cfg.W) :
    (s.writeNumbits n).clearEntries.Inv := by
  obtain ⟨hadm, hst, -, -, -, -, hrsp, hok, hph⟩ := hs
  refine ⟨hadm, hst, ?_, List.length_replicate, fun p _ hv => ?_, fun p _ _ => ?_, hrsp, hok, hph⟩
  · rwa [State.CapacityFits, clearEntries_numbits, writeNumbits_numbits, toNat_ofNat_of_le_maxW (hn.trans hadm.2.1)]
  · rw [entryAt_clearEntries] at hv
    exact absurd hv Bool.false_ne_true
  · rw [entryAt_clearEntries]
    rfl

/-- Registering a field that has passed the bounds check (R35, R140). -/
theorem inv_writeEntry {s : State} (hs : s.Inv) {p : Nat} {w : Byte} (hoob : s.oob p w.toNat = false) :
    (s.writeEntry p w.toNat).Inv := by
  obtain ⟨hadm, hst, hcap, htab, hin, hempty, hrest⟩ := hs
  have hslot : ∀ q, (s.writeEntry p w.toNat).entryAt q = if q = p then ⟨true, w⟩ else s.entryAt q :=
    entryAt_writeEntry_byte (lt_length_of_oob_eq_false hcap htab hoob) w
  refine ⟨hadm, hst, hcap, List.length_set.trans htab, fun q hq hv => ?_, fun q hq hv => ?_, hrest⟩
  · rw [hslot] at hv ⊢
    split at hv
    next hqp => rw [if_pos hqp, hqp]; exact (oob_eq_false_iff ..).mp hoob
    next hqp => rw [if_neg hqp]; exact hin q hq hv
  · rw [hslot] at hv ⊢
    split at hv
    next hqp => exact absurd hv.symm Bool.false_ne_true
    next hqp => rw [if_neg hqp]; exact hempty q hq hv

theorem inv_acceptEdge {s : State} (hs : s.Inv) : s.acceptEdge.Inv := by
  obtain ⟨hadm, hst, hcap, htab, hin, hempty, hrsp, hok, -⟩ := hs
  exact ⟨hadm, hst, hcap, htab, hin, hempty, hrsp, hok, afterAccept_within⟩

theorem inv_otherEdge {s : State} (hs : s.Inv) : s.otherEdge.Inv := by
  obtain ⟨hadm, hst, hcap, htab, hin, hempty, hrsp, hok, hph⟩ := hs
  cases hr : s.pins.rst with
  | true => rw [otherEdge_of_rst hr]; exact resetOf_inv hadm _
  | false =>
    rw [otherEdge_of_no_rst hr]
    exact ⟨hadm, hst, hcap, htab, hin, hempty, hrsp, hok, afterEdge_within hph _⟩

/-! ## Every command and every edge keeps it -/

/-- The writes NEW and FROM have in common (R120, R122). -/
theorem inv_construction {s : State} (hs : s.Inv) (v : Nat) {n : Nat} (hn : n ≤ s.cfg.W) :
    ((((s.writeStorage v).writeNumbits n).clearEntries).writeResponse .ok 0).Inv :=
  inv_writeResponse (inv_clearEntries_writeNumbits (inv_writeStorage hs v) hn) fun _ => rfl

theorem exec_inv {i : Instr} {s t : State} (hs : s.Inv) (h : exec i s = .next t) : t.Inv := by
  have herror (st : Status) : (s.writeResponse st 0).Inv := inv_writeResponse hs fun _ => rfl
  have hanswer (d : Word) : (s.writeResponse .ok d).Inv := inv_writeResponse hs fun hne => absurd rfl hne
  cases i with
  | new n =>
    obtain ⟨-, e⟩ | ⟨hn, e⟩ := execNew_cases n s
    · rw [e] at h; cases h; exact herror _
    · rw [e] at h; cases h
      refine inv_construction hs 0 ?_
      split
      · exact le_rfl
      · exact hn
  | fromRaw raw => rw [execFrom_eq] at h; cases h; exact inv_construction hs _ le_rfl
  | add pos wid =>
    obtain ⟨-, e⟩ | ⟨-, -, e⟩ | ⟨hoob, -, e⟩ := execAdd_cases pos wid s
    · rw [e] at h; cases h; exact herror _
    · rw [e] at h; cases h; exact herror _
    · rw [e] at h; cases h; exact inv_writeResponse (inv_writeEntry hs hoob) fun _ => rfl
  | insert pos wid dsize dat =>
    obtain ⟨-, e⟩ | ⟨-, -, e⟩ | ⟨hoob, -, -, e⟩ := execInsert_cases pos wid dsize dat s
    · rw [e] at h; cases h; exact herror _
    · rw [e] at h; cases h; exact herror _
    · rw [e] at h; cases h
      exact inv_writeResponse (inv_writeEntry (inv_writeStorage hs _) hoob) fun hne => absurd rfl hne
  | get pos =>
    obtain ⟨-, e⟩ | ⟨-, e⟩ := execGet_cases pos s
    · rw [e] at h; cases h; exact hanswer _
    · rw [e] at h; cases h; exact herror _
  | getAs pos tsel =>
    obtain ⟨-, -, e⟩ | ⟨-, e⟩ := execGetAs_cases pos tsel s
    · rw [e] at h; cases h; exact hanswer _
    · rw [e] at h; cases h; exact herror _
  | getRaw => rw [execGetRaw_eq] at h; cases h; exact hanswer _

theorem perform_inv {hdr : Header} {cdata : Word} {s t : State} (hs : s.Inv) (h : perform hdr cdata s = .next t) :
    t.Inv := by
  obtain ⟨i, -, e⟩ | ⟨err, -, e⟩ := perform_cases hdr cdata s
  · exact exec_inv hs (e.symm.trans h)
  · rw [e, ← writeResponse_zero] at h; cases h
    exact inv_writeResponse hs fun _ => rfl

/-- Settles O19: an edge performs a command on `acceptEdge` or gives `otherEdge`, and each keeps the invariant. -/
theorem everyEdgeKeepsInvariant : Obligations.EveryEdgeKeepsInvariant := by
  intro s t hs h
  obtain ⟨-, ⟨hdr, cdata, -, hp⟩ | ⟨-, rfl⟩⟩ := step_cases h
  · exact perform_inv (inv_acceptEdge hs) hp
  · exact inv_otherEdge hs

/-! ## The configuration and the capacity along a run (R38, R44) -/

/-- Settles O21: the frames of `exec_ports_frame` and `step_frame`. -/
theorem configurationNeverChanges : Obligations.ConfigurationNeverChanges :=
  ⟨fun _ _ _ h => (exec_ports_frame h).1, fun _ _ h => (step_frame h).1⟩

/-- NEW and FROM alone write the capacity, and under WIDEN both write `W` (R121, R122). -/
theorem exec_numbits_of_widen {i : Instr} {s t : State} (hmode : s.cfg.capMode = .widen) (h : exec i s = .next t) :
    t.numbits = s.numbits ∨ t.numbits = BitVec.ofNat 8 s.cfg.W := by
  cases i with
  | new n =>
    obtain ⟨-, e⟩ | ⟨-, e⟩ := execNew_cases n s
    · rw [e] at h; cases h; exact .inl rfl
    · rw [e, if_pos hmode] at h; cases h; exact .inr rfl
  | fromRaw raw => rw [execFrom_eq] at h; cases h; exact .inr rfl
  | add pos wid =>
    obtain ⟨-, e⟩ | ⟨-, -, e⟩ | ⟨-, -, e⟩ := execAdd_cases pos wid s <;> (rw [e] at h; cases h; exact .inl rfl)
  | insert pos wid dsize dat =>
    obtain ⟨-, e⟩ | ⟨-, -, e⟩ | ⟨-, -, -, e⟩ := execInsert_cases pos wid dsize dat s <;>
      (rw [e] at h; cases h; exact .inl rfl)
  | get pos => obtain ⟨-, e⟩ | ⟨-, e⟩ := execGet_cases pos s <;> (rw [e] at h; cases h; exact .inl rfl)
  | getAs pos tsel => obtain ⟨-, -, e⟩ | ⟨-, e⟩ := execGetAs_cases pos tsel s <;> (rw [e] at h; cases h; exact .inl rfl)
  | getRaw => rw [execGetRaw_eq] at h; cases h; exact .inl rfl

theorem step_numbits_of_widen {s t : State} (hmode : s.cfg.capMode = .widen) (h : step s = .next t) :
    t.numbits = s.numbits ∨ t.numbits = BitVec.ofNat 8 s.cfg.W := by
  cases hr : s.pins.rst with
  | true =>
    obtain ⟨-, ⟨hdr, cdata, hf, -⟩ | ⟨-, rfl⟩⟩ := step_cases h
    · rw [fetch_eq_none_of_rst hr] at hf; cases hf
    · rw [otherEdge_of_rst hr]; exact .inr (resetOf_numbits ..)
  | false =>
    obtain ⟨i, -, he⟩ | ⟨-, -, hnum, -⟩ := step_cases_of_no_rst hr h
    · exact exec_numbits_of_widen (s := s.acceptEdge) hmode he
    · exact .inl hnum

/-- Settles O22: by induction on the edges, the capacity at each being the old one or `W`. -/
theorem widenKeepsFullCapacity : Obligations.WidenKeepsFullCapacity := by
  intro k
  induction k with
  | zero => intro s t _ _ hcap h; cases h; exact hcap
  | succ k ih =>
    intro s t hmode hadm hcap h
    obtain ⟨u, hstep, hrun⟩ := step_run_of_run_succ h
    have hcfg : u.cfg = s.cfg := (step_frame hstep).1
    refine ih u t (hcfg ▸ hmode) (hcfg ▸ hadm) ?_ hrun
    rw [hcfg]
    obtain hnum | hnum := step_numbits_of_widen hmode hstep
    · rw [hnum, hcap]
    · rw [hnum, toNat_ofNat_of_le_maxW hadm.2.1]

/-! ## Which commands write which register (R31, R32, R37) -/

/-- ADD writes the field table and the response registers only (R144). -/
theorem execAdd_frame {pos wid : Byte} {s t : State} (h : exec (.add pos wid) s = .next t) :
    t.storage = s.storage ∧ t.numbits = s.numbits := by
  obtain ⟨-, e⟩ | ⟨-, -, e⟩ | ⟨-, -, e⟩ := execAdd_cases pos wid s <;> (rw [e] at h; cases h; exact ⟨rfl, rfl⟩)

/-- INSERT does not write the capacity (R145). -/
theorem execInsert_numbits {pos wid dsize : Byte} {dat : Word} {s t : State}
    (h : exec (.insert pos wid dsize dat) s = .next t) : t.numbits = s.numbits := by
  obtain ⟨-, e⟩ | ⟨-, -, e⟩ | ⟨-, -, -, e⟩ := execInsert_cases pos wid dsize dat s <;> (rw [e] at h; cases h; rfl)

/-- The reads write no architectural state (R67). -/
theorem execRead_frame {i : Instr} (hi : IsRead i) {s t : State} (h : exec i s = .next t) :
    t.storage = s.storage ∧ t.numbits = s.numbits ∧ t.entry = s.entry := by
  obtain ⟨st, d, e⟩ := exec_eq_next_of_isRead hi s
  rw [e] at h; cases h
  exact ⟨rfl, rfl, rfl⟩

/-- A command that changes a register is one of the register's writers. -/
theorem exec_writers {i : Instr} {s t : State} (h : exec i s = .next t) :
    (t.storage ≠ s.storage → (∃ n, i = .new n) ∨ (∃ raw, i = .fromRaw raw) ∨
      ∃ pos wid dsize dat, i = .insert pos wid dsize dat) ∧
    (t.numbits ≠ s.numbits → (∃ n, i = .new n) ∨ ∃ raw, i = .fromRaw raw) ∧
    (t.entry ≠ s.entry → (∃ n, i = .new n) ∨ (∃ raw, i = .fromRaw raw) ∨ (∃ pos wid, i = .add pos wid) ∨
      ∃ pos wid dsize dat, i = .insert pos wid dsize dat) := by
  have hread (hi : IsRead i) : t.storage = s.storage ∧ t.numbits = s.numbits ∧ t.entry = s.entry :=
    execRead_frame hi h
  cases i with
  | new n => simp
  | fromRaw raw => simp
  | add pos wid =>
    obtain ⟨hst, hnum⟩ := execAdd_frame h
    simp [hst, hnum]
  | insert pos wid dsize dat => simp [execInsert_numbits h]
  | get pos => simp [hread (.inl ⟨pos, rfl⟩)]
  | getAs pos tsel => simp [hread (.inr (.inl ⟨pos, tsel, rfl⟩))]
  | getRaw => simp [hread (.inr (.inr rfl))]

/-- Settles O24: the edge performs a command, whose writes are those of `exec_writers`, or changes none of the three. -/
theorem registersHaveTheirWritersOnly : Obligations.RegistersHaveTheirWritersOnly := by
  intro s t hr h
  obtain ⟨i, hi, he⟩ | ⟨-, hst, hnum, hent⟩ := step_cases_of_no_rst hr h
  · simp only [hi, Option.some.injEq]
    exact exec_writers (s := s.acceptEdge) he
  · exact ⟨absurd hst, absurd hnum, absurd hent⟩

/-! ## Which statuses each command can be answered with (R87, R200) -/

theorem perform_of_reject {hdr : Header} {cdata : Word} {e : DecodeError} (h : decode hdr cdata = .reject e)
    (s : State) : perform hdr cdata s = .next { s with rspStatus := .illegalCommand, rspData := 0 } := by
  simp only [perform, h, illegalCommand_eq_next]

theorem perform_of_op_reserved {hdr : Header} (h : 7 ≤ hdr.toNat % 16) (cdata : Word) (s : State) :
    perform hdr cdata s = .next { s with rspStatus := .illegalCommand, rspData := 0 } :=
  perform_of_reject (decode_of_op_reserved cdata h) s

/-- Settles O27: the status of each case of the command's case lemma; the codes by evaluation. -/
theorem statusesEachCommandCanGive : Obligations.StatusesEachCommandCanGive := by
  refine ⟨fun n s t h => ?_, fun raw s t h => ?_, fun pos wid s t h => ?_, fun pos wid dsize dat s t h => ?_,
    fun pos s t h => ?_, fun pos tsel s t h => ?_, fun s t h => ?_, fun hdr cdata s t hop h => ?_, by decide,
    fun st => by cases st <;> decide⟩
  · obtain ⟨-, e⟩ | ⟨-, e⟩ := execNew_cases n s <;> (rw [e] at h; cases h; simp)
  · rw [execFrom_eq] at h; cases h; rfl
  · obtain ⟨-, e⟩ | ⟨-, -, e⟩ | ⟨-, -, e⟩ := execAdd_cases pos wid s <;> (rw [e] at h; cases h; simp)
  · obtain ⟨-, e⟩ | ⟨-, -, e⟩ | ⟨-, -, -, e⟩ := execInsert_cases pos wid dsize dat s <;> (rw [e] at h; cases h; simp)
  · obtain ⟨-, e⟩ | ⟨-, e⟩ := execGet_cases pos s <;> (rw [e] at h; cases h; simp)
  · obtain ⟨-, -, e⟩ | ⟨-, e⟩ := execGetAs_cases pos tsel s <;> (rw [e] at h; cases h; simp)
  · rw [execGetRaw_eq] at h; cases h; rfl
  · rw [perform_of_op_reserved hop] at h; cases h; rfl

end Sys2Proof.Machine
end

section
/-! The handshake (30_encoding.md R80, 70_reset_and_hazards.md R230, R231, R235, R236): what an edge of a ready, a busy
and a presenting block does, and the edges from a command's acceptance to the delivery of its response. -/

namespace Sys2Proof.Machine

/-! ## An edge at which a ready block is given a command (R80, R235) -/

theorem pins_of_inputs {s : State} {p : PortInput} {rest : List PortInput} (h : s.inputs = p :: rest) :
    s.pins = p := by
  rw [State.pins, h, List.headD_cons]

theorem acceptEdge_of_inputs {s : State} {p : PortInput} {rest : List PortInput} (h : s.inputs = p :: rest) :
    s.acceptEdge = { s with phase := Phase.afterAccept s.cfg.latency, inputs := rest } := by
  rw [State.acceptEdge, h, List.tail_cons]

theorem step_eq_perform_of_ready {s : State} {p : PortInput} {rest : List PortInput} (ha : s.cfg.Admitted)
    (hidle : s.phase = .idle) (hins : s.inputs = p :: rest) (hr : p.rst = false) (hv : p.cmdValid = true) :
    step s = perform p.cmdHdr (trunc s.cfg.W p.cmdData.toNat)
      { s with phase := Phase.afterAccept s.cfg.latency, inputs := rest } := by
  have hpins : s.pins = p := pins_of_inputs hins
  have hf : s.fetch = some (p.cmdHdr, trunc s.cfg.W p.cmdData.toNat) :=
    (fetch_eq_some_iff ..).mpr ⟨by rw [hpins, hr], hidle, by rw [hpins, hv], by rw [hpins], by rw [hpins]⟩
  rw [step_of_fetch ha hf, acceptEdge_of_inputs hins]

theorem perform_of_decode {hdr : Header} {cdata : Word} {i : Instr} (h : decode hdr cdata = .command i) (s : State) :
    perform hdr cdata s = exec i s := by
  simp only [perform, h]

/-- Settles O8: the accepted words decode to the command. -/
theorem stepPerformsAcceptedCommand : Obligations.StepPerformsAcceptedCommand := by
  intro s p rest i ha hidle hins hr hv hdec
  rw [step_eq_perform_of_ready ha hidle hins hr hv, perform_of_decode hdec]

/-- The `W`-bit data port takes nothing off the words of a well-formed command (R80, R82). -/
theorem decode_trunc_of_wellFormed {hdr : Header} {cdata : Word} {i : Instr} {W : Nat}
    (hdec : decode hdr cdata = .command i) (hwf : i.wellFormed W = true) :
    decode hdr (trunc W cdata.toNat) = .command i := by
  rw [← hdec]
  refine decode_eq_of_used_eq rfl fun hop => trunc_of_lt ?_
  obtain hop | hop := hop
  · rw [decode_of_op_from _ hop] at hdec; cases hdec; exact of_decide_eq_true hwf
  · rw [decode_of_op_insert _ hop] at hdec; cases hdec; exact of_decide_eq_true hwf

theorem decode_of_toOption {d : Decoded} {i : Instr} (h : d.toOption = some i) : d = .command i := by
  cases d with
  | command j => cases h; rfl
  | reject e => cases h

/-- Settles O9: the state with the word on its port is ready and given that command. -/
theorem fetchWordRunsItsCommand : Obligations.FetchWordRunsItsCommand := by
  intro s nbits w i ha hdec hwf
  exact stepPerformsAcceptedCommand (s.withFetchWord nbits w) _ s.inputs i ha rfl rfl rfl rfl
    (decode_trunc_of_wellFormed (decode_of_toOption hdec) hwf)

/-- Settles O10: the accepted words are rejected by the decoder, and the rows of the opcode map leave no header out. -/
theorem reservedOpcodeAnswersIllegalCommand : Obligations.ReservedOpcodeAnswersIllegalCommand := by
  refine ⟨fun s p rest ha hidle hins hr hv hop => ?_, fun hdr cdata => ⟨fun hop => ?_, fun hop => ?_⟩, rfl⟩
  · rw [step_eq_perform_of_ready ha hidle hins hr hv, perform_of_op_reserved hop]
  · obtain h | h | h | h | h | h | h | h := op_cases hdr
    · exact ⟨_, decode_of_op_new cdata h⟩
    · exact ⟨_, decode_of_op_from cdata h⟩
    · exact ⟨_, decode_of_op_add cdata h⟩
    · exact ⟨_, decode_of_op_insert cdata h⟩
    · exact ⟨_, decode_of_op_get cdata h⟩
    · exact ⟨_, decode_of_op_getAs cdata h⟩
    · exact ⟨_, decode_of_op_getRaw cdata h⟩
    · omega
  · exact ⟨_, decode_of_op_reserved cdata hop⟩

/-- Settles O18: `exec_eq_next`, `step_eq_next`, and the fault on a block that cannot be built. -/
theorem everyEdgeAnswersANextState : Obligations.EveryEdgeAnswersANextState :=
  ⟨exec_eq_next, fun _ ha => step_eq_next ha, fun _ ha => if_neg ha⟩

/-! ## A reset edge (R230, R231) -/

/-- NEW with the block's own width makes the same writes in either mode. -/
theorem execNew_full_width {u : State} (ha : u.cfg.Admitted) :
    exec (.new (BitVec.ofNat 8 u.cfg.W)) u =
      .next ((((u.writeStorage 0).writeNumbits u.cfg.W).clearEntries).writeResponse .ok 0) := by
  have hn : (BitVec.ofNat 8 u.cfg.W).toNat = u.cfg.W := toNat_ofNat_of_le_maxW ha.2.1
  obtain ⟨hgt, -⟩ | ⟨-, e⟩ := execNew_cases (BitVec.ofNat 8 u.cfg.W) u
  · omega
  · rw [e, hn, ite_self]

/-- Settles O11: the next state is `resetOf`, whose registers are those NEW writes. -/
theorem resetEdgeGivesFreshSet : Obligations.ResetEdgeGivesFreshSet := by
  intro s p rest ha hins hr
  have hrst : s.pins.rst = true := by rw [pins_of_inputs hins, hr]
  have hfetch : s.fetch = none := fetch_eq_none_of_rst hrst
  refine ⟨by simp [State.cmdReady, hrst], hfetch, by simp [State.transfer, State.rspPort, State.rspValid, hrst],
    State.resetOf s.cfg rest, ?_, rfl, rfl, rfl, toNat_ofNat_of_le_maxW ha.2.1, List.length_replicate,
    entryAt_resetOf _ _, rfl, rfl, ?_, fun h => ?_, fun u hu => ?_⟩
  · rw [step_of_no_fetch ha hfetch, otherEdge_of_rst hrst, hins, List.tail_cons]
  · simp [State.rspValid, Phase.isResponding]
  · simp [State.cmdReady, h, Phase.isIdle]
  · rw [← hu] at ha ⊢
    refine ⟨_, execNew_full_width ha, rfl, ?_, rfl, rfl⟩
    exact trunc_zero _

/-! ## An edge of a block with a command in flight (R80, R235) -/

theorem step_of_busy {s : State} (ha : s.cfg.Admitted) (hbusy : s.phase ≠ .idle) (hr : s.pins.rst = false) :
    step s = .next { s with phase := s.phase.afterEdge s.pins.rspReady, inputs := s.inputs.tail } := by
  rw [step_of_no_fetch ha (fetch_eq_none_of_busy hbusy), otherEdge_of_no_rst hr]

theorem cmdReady_of_busy {s : State} (h : s.phase ≠ .idle) : s.cmdReady = false := by
  unfold State.cmdReady
  cases hp : s.phase with
  | idle => exact absurd hp h
  | computing left => exact Bool.and_false _
  | responding => exact Bool.and_false _

/-- Settles O13: the next state of a busy block names no pin of the command port. -/
theorem busyBlockIgnoresCommandPort : Obligations.BusyBlockIgnoresCommandPort := by
  intro s p rest valid hdr data ha hbusy hins hr
  have hpins : s.pins = p := pins_of_inputs hins
  have hstep := step_of_busy ha hbusy (by rw [hpins, hr])
  rw [hpins, hins, List.tail_cons] at hstep
  refine ⟨cmdReady_of_busy hbusy, hstep.trans ?_, _, hstep⟩
  symm
  exact step_of_busy (s := { s with inputs := _ :: rest }) ha hbusy hr

theorem rspPort_eq_some_iff (s : State) (r : Response) :
    s.rspPort = some r ↔ s.pins.rst = false ∧ s.phase = .responding ∧ r = ⟨s.rspStatus, s.rspData⟩ := by
  unfold State.rspPort State.rspValid
  cases hp : s.phase <;> cases hr : s.pins.rst <;> simp [Phase.isResponding, eq_comm]

/-- Settles O14: a presenting block is busy, and `afterEdge` keeps its phase until the response is taken. -/
theorem responseHeldUntilTaken : Obligations.ResponseHeldUntilTaken := by
  intro s r ha hport
  obtain ⟨hr, hphase, hreg⟩ := (rspPort_eq_some_iff s r).mp hport
  have hbusy : s.phase ≠ .idle := by rw [hphase]; nofun
  have hstep := step_of_busy ha hbusy hr
  rw [hphase] at hstep
  refine ⟨hreg, cmdReady_of_busy hbusy, fun hwait => ⟨?_, ?_⟩, fun htake => ⟨?_, ?_⟩⟩
  · simp [State.transfer, hwait]
  · rw [hstep, hwait, Phase.afterEdge, if_neg Bool.false_ne_true, ← hphase]
  · simp [State.transfer, htake, hport]
  · rw [hstep, htake, Phase.afterEdge, if_pos rfl]

/-! ## From acceptance to the response (R80, R236) -/

/-- The edges of a run in two parts: the second starts where the first ends. -/
theorem run_add {m : Nat} {s t : State} (h : run m s = .next t) (n : Nat) : run (m + n) s = run n t := by
  induction m generalizing s with
  | zero => cases h; rw [Nat.zero_add]
  | succ m ih =>
    obtain ⟨u, hstep, hrun⟩ := step_run_of_run_succ h
    rw [Nat.succ_add, run_succ_of_step hstep, ih hrun]

theorem deliveredIn_add {m : Nat} {s t : State} (h : run m s = .next t) (n : Nat) :
    deliveredIn (m + n) s = deliveredIn m s ++ deliveredIn n t := by
  induction m generalizing s with
  | zero => cases h; rw [Nat.zero_add, deliveredIn, List.nil_append]
  | succ m ih =>
    obtain ⟨u, hstep, hrun⟩ := step_run_of_run_succ h
    rw [Nat.succ_add, deliveredIn_succ_of_step hstep, deliveredIn_succ_of_step hstep, ih hrun, List.append_assoc]

/-- A response one edge nearer: `afterAccept n` is the phase of a block `n` edges, the present one counted, from its
response. -/
theorem afterEdge_afterAccept (n : Nat) (take : Bool) :
    (Phase.afterAccept (n + 2)).afterEdge take = Phase.afterAccept (n + 1) := by
  simp [Phase.afterAccept, Phase.afterEdge]

theorem afterAccept_ne_responding (n : Nat) : Phase.afterAccept (n + 2) ≠ .responding := by
  simp [Phase.afterAccept]

/-- A command in flight for `k` edges on which its response does not appear yet, without a reset: nothing but the phase
and the inputs moves, and nothing is delivered. -/
theorem run_of_computing {k n : Nat} {v : State} (ha : v.cfg.Admitted)
    (hphase : v.phase = Phase.afterAccept (n + 1 + k)) (hr : ∀ p ∈ v.inputs.take k, p.rst = false) :
    run k v = .next { v with phase := Phase.afterAccept (n + 1), inputs := v.inputs.drop k } ∧
      deliveredIn k v = [] := by
  induction k generalizing v with
  | zero => rw [← Nat.add_zero (n + 1), ← hphase, List.drop_zero]; exact ⟨rfl, rfl⟩
  | succ k ih =>
    obtain ⟨hnow, hlater⟩ := no_rst_succ hr
    have hphase' : v.phase = Phase.afterAccept (n + k + 2) := by rw [hphase]; congr 1; omega
    have hstep := step_of_busy ha (hphase' ▸ afterAccept_ne_idle _) hnow
    rw [hphase', afterEdge_afterAccept, show n + k + 1 = n + 1 + k by omega] at hstep
    obtain ⟨hrun, hdel⟩ := ih (v := { v with phase := Phase.afterAccept (n + 1 + k), inputs := v.inputs.tail })
      ha rfl hlater
    rw [run_succ_of_step hstep, deliveredIn_succ_of_step hstep, hrun, hdel,
      delivered_of_not_responding (hphase' ▸ afterAccept_ne_responding _), List.drop_tail]
    exact ⟨rfl, rfl⟩

/-- The first `k + 1` edges from a command's acceptance on, at most `LATENCY` of them: the registers are those the command
leaves, and nothing is delivered yet. -/
theorem run_of_accepted {s u : State} {hdr : Header} {cdata : Word} {k n : Nat} (ha : s.cfg.Admitted)
    (hf : s.fetch = some (hdr, cdata)) (hu : perform hdr cdata s.acceptEdge = .next u)
    (hlat : s.cfg.latency = n + 1 + k) (hr : ∀ p ∈ s.inputs.take (k + 1), p.rst = false) :
    run (k + 1) s = .next { u with phase := Phase.afterAccept (n + 1), inputs := s.inputs.drop (k + 1) } ∧
      deliveredIn (k + 1) s = [] := by
  obtain ⟨hcfg, hphase, hins⟩ := perform_ports_frame hu
  rw [acceptEdge_cfg] at hcfg
  rw [acceptEdge_phase, hlat] at hphase
  rw [acceptEdge_inputs] at hins
  have hready : s.phase ≠ .responding := by
    rw [((fetch_eq_some_iff s hdr cdata).mp hf).2.1]
    nofun
  have hstep : step s = .next u := (step_of_fetch ha hf).trans hu
  obtain ⟨hrun, hdel⟩ := run_of_computing (hcfg ▸ ha) hphase (hins ▸ (no_rst_succ hr).2)
  rw [run_succ_of_step hstep, deliveredIn_succ_of_step hstep, hrun, hdel, delivered_of_not_responding hready, hins,
    List.drop_tail]
  exact ⟨rfl, rfl⟩

/-- Settles O15: `run_of_accepted` after `j - 1` further edges. -/
theorem responseAppearsAfterLatency : Obligations.ResponseAppearsAfterLatency := by
  intro s hdr cdata ha hf hr
  obtain ⟨u, hu⟩ := perform_eq_next hdr cdata s.acceptEdge
  refine ⟨u, hu, fun j hj hle => ?_⟩
  obtain ⟨k, rfl⟩ : ∃ k, j = k + 1 := ⟨j - 1, by omega⟩
  obtain ⟨n, hlat⟩ : ∃ n, s.cfg.latency = n + 1 + k := ⟨s.cfg.latency - (k + 1), by omega⟩
  have hr' : ∀ p ∈ s.inputs.take (k + 1), p.rst = false := fun p hp => hr p (List.take_subset_take_left _ hle hp)
  have hphase : Phase.afterAccept (n + 1) =
      if k + 1 = s.cfg.latency then .responding else .computing (s.cfg.latency - (k + 1)) := by
    rw [hlat, Phase.afterAccept]
    congr 1
    · simp only [eq_iff_iff]; omega
    · congr 1; omega
  rw [(run_of_accepted ha hf hu hlat hr').1, hphase]

/-! ## One command's whole handshake (R80) -/

/-- Performing a command neither reads nor writes the ports' side of the state. -/
theorem perform_withPorts {hdr : Header} {cdata : Word} {s t : State} (h : perform hdr cdata s = .next t) (ph : Phase)
    (ins : List PortInput) :
    perform hdr cdata { s with phase := ph, inputs := ins } = .next { t with phase := ph, inputs := ins } := by
  cases hdec : decode hdr cdata with
  | command i =>
    rw [perform_of_decode hdec] at h ⊢
    exact exec_withPorts h ph ins
  | reject e =>
    rw [perform_of_reject hdec] at h ⊢
    cases h
    rfl

/-- The edge at which a presented response is taken. -/
theorem run_one_of_taken {v : State} (ha : v.cfg.Admitted) (hphase : v.phase = .responding) (hr : v.pins.rst = false)
    (htake : v.pins.rspReady = true) :
    run 1 v = .next { v with phase := .idle, inputs := v.inputs.tail } ∧
      deliveredIn 1 v = [⟨v.rspStatus, v.rspData⟩] := by
  have hport : v.rspPort = some ⟨v.rspStatus, v.rspData⟩ := (rspPort_eq_some_iff ..).mpr ⟨hr, hphase, rfl⟩
  obtain ⟨-, -, -, htaken⟩ := responseHeldUntilTaken v _ ha hport
  obtain ⟨-, hstep⟩ := htaken htake
  rw [run_succ_of_step hstep, deliveredIn_succ_of_step hstep, delivered_of_responding hr hphase, if_pos htake]
  exact ⟨rfl, rfl⟩

/-- Settles O17: `LATENCY` edges to the response, by `run_of_accepted`, and the one at which it is taken. -/
theorem handshakeRefinesOneCommandStep : Obligations.HandshakeRefinesOneCommandStep := by
  rintro s hdr cdata ha hf hr ⟨p, hp, htake⟩
  obtain ⟨u, hu⟩ := perform_eq_next hdr cdata s
  obtain ⟨hcfg, hphase, -⟩ := perform_ports_frame hu
  have hidle : u.phase = .idle := hphase.trans ((fetch_eq_some_iff s hdr cdata).mp hf).2.1
  obtain ⟨k, hlat⟩ : ∃ k, s.cfg.latency = 0 + 1 + k := ⟨s.cfg.latency - 1, by omega⟩
  have hk : k + 1 = s.cfg.latency := by omega
  obtain ⟨hrun, hdel⟩ := run_of_accepted ha hf (perform_withPorts hu _ s.inputs.tail) hlat
    fun q hq => hr q (List.take_subset_take_left _ (by omega) hq)
  rw [hk] at hrun hdel
  obtain ⟨hlt, hget⟩ := List.getElem?_eq_some_iff.mp hp
  have hins : s.inputs.drop s.cfg.latency = p :: s.inputs.drop (s.cfg.latency + 1) :=
    hget ▸ List.drop_eq_getElem_cons hlt
  have hrst : p.rst = false := hr p (List.mem_take_iff_getElem.mpr ⟨s.cfg.latency, by omega, hget⟩)
  rw [hins] at hrun
  obtain ⟨hrun', hdel'⟩ := run_one_of_taken
    (v := { u with phase := .responding, inputs := p :: s.inputs.drop (s.cfg.latency + 1) }) (hcfg ▸ ha) rfl hrst htake
  refine ⟨u, hu, ?_, ?_⟩
  · rw [run_add hrun 1]
    exact hrun'.trans (by rw [← hidle, List.tail_cons])
  · rw [deliveredIn_add hrun 1, hdel]
    exact hdel'

end Sys2Proof.Machine
end

section
/-! The acceptance table (00_scope.md R13, 42_field_read.md R173): its plain data as predicates on words. -/

namespace Sys2Proof.Machine

/-- Settles O31: the row that lists the words the predicate accepts. -/
theorem everyAcceptPredicateHasARow : Obligations.EveryAcceptPredicateHasARow := by
  intro f
  refine ⟨.oneOf ((FinEnum.toList Word).filter f), fun v => ?_⟩
  rw [acceptsValue, Bool.eq_iff_iff, List.contains_iff_mem, List.mem_filter, and_iff_right (FinEnum.mem_toList v)]

/-- The rows of `COMPAT`: an unsigned integer type of `8 * 2^t` bits below 5, an empty one from there on (R173). -/
theorem compat_accept_get : ∀ t : BitVec 4, Config.compat.accept.get t.toFin =
    if t.toNat < 5 then .below (8 * 2 ^ t.toNat) else .oneOf [] := by decide

/-- Settles O32: the two kinds of row. -/
theorem compatAcceptTable : Obligations.CompatAcceptTable := by
  intro t v
  rw [typeAccepts, compat_accept_get]
  split
  · rfl
  · rfl

end Sys2Proof.Machine
end

section
/-! What no command can tell apart: the reads see the word, the valid bits and the widths of valid slots only
(42_field_read.md), no command sees the width of an invalid slot (10_state.md R34) or `LATENCY` (00_scope.md R14). -/

namespace Sys2Proof.Machine

/-! ## What the reads see (R171, R172, R174) -/

/-- Two states with the same word, the same fields registered, the same storage width and acceptance table. -/
structure SameReads (s s' : State) : Prop where
  W       : s'.cfg.W = s.cfg.W
  accept  : s'.cfg.accept = s.cfg.accept
  storage : s'.storage = s.storage
  valid   : ∀ p, (s'.entryAt p).v = (s.entryAt p).v
  width   : ∀ p, (s.entryAt p).v = true → (s'.entryAt p).w = (s.entryAt p).w

section SameReads
variable {s s' : State}

theorem SameReads.registered_eq (h : SameReads s s') (p : Nat) : s'.registered p = s.registered p := by
  rw [State.registered, State.registered, h.W, h.valid]

theorem SameReads.extract_eq (h : SameReads s s') {p : Nat} (hp : s.registered p = true) :
    s'.extract p = s.extract p := by
  rw [State.extract, State.extract, h.W, h.storage, h.width p ((registered_iff s p).mp hp).2]

theorem SameReads.typeAccepts_eq (h : SameReads s s') (t : BitVec 4) (v : Word) :
    typeAccepts s'.cfg t v = typeAccepts s.cfg t v := by
  rw [typeAccepts, typeAccepts, h.accept]

theorem execGet_eq_writeResponse {pos : Byte} (h : s.registered pos.toNat = true) :
    exec (.get pos) s = .next (s.writeResponse .ok (s.extract pos.toNat)) := by
  simp [exec, execGet, byteOperand, respond, h]

theorem execGetAs_eq_writeResponse {pos : Byte} {tsel : BitVec 4} (h : s.registered pos.toNat = true)
    (hacc : typeAccepts s.cfg tsel (s.extract pos.toNat) = true) :
    exec (.getAs pos tsel) s = .next (s.writeResponse .ok (s.extract pos.toNat)) := by
  simp [exec, execGetAs, byteOperand, respond, h, hacc]

/-- A read answers such states alike: the same response, each state else as it was. -/
theorem SameReads.exec_eq (h : SameReads s s') {i : Instr} (hi : IsRead i) :
    ∃ st d, exec i s = .next (s.writeResponse st d) ∧ exec i s' = .next (s'.writeResponse st d) := by
  obtain ⟨pos, rfl⟩ | ⟨pos, tsel, rfl⟩ | rfl := hi
  · obtain ⟨hreg, e⟩ | ⟨hreg, e⟩ := execGet_cases pos s
    · have hreg' := (h.registered_eq pos.toNat).trans hreg
      exact ⟨_, _, e, h.extract_eq hreg ▸ execGet_eq_writeResponse hreg'⟩
    · have hreg' := (h.registered_eq pos.toNat).trans hreg
      exact ⟨_, _, e, (execGet_of_not_registered hreg').trans (writeResponse_zero s' .absent ▸ rfl)⟩
  · cases hreg : s.registered pos.toNat with
    | false =>
      have hreg' := (h.registered_eq pos.toNat).trans hreg
      refine ⟨.tryFromError, 0, ?_, ?_⟩
      · rw [execGetAs_of_not_registered hreg, writeResponse_zero]
      · rw [execGetAs_of_not_registered hreg', writeResponse_zero]
    | true =>
      have hreg' := (h.registered_eq pos.toNat).trans hreg
      have hval := h.extract_eq hreg
      have hacc' := h.typeAccepts_eq tsel (s.extract pos.toNat)
      cases hacc : typeAccepts s.cfg tsel (s.extract pos.toNat) with
      | true =>
        exact ⟨_, _, execGetAs_eq_writeResponse hreg hacc,
          hval ▸ execGetAs_eq_writeResponse hreg' (hval.symm ▸ hacc'.trans hacc)⟩
      | false =>
        refine ⟨.tryFromError, 0, ?_, ?_⟩
        · rw [execGetAs_of_rejected hreg hacc, writeResponse_zero]
        · rw [execGetAs_of_rejected hreg' (hval.symm ▸ hacc'.trans hacc), writeResponse_zero]
  · exact ⟨.ok, s.storage, execGetRaw_eq s, h.storage ▸ execGetRaw_eq s'⟩

end SameReads

/-! ## The width of an invalid slot (R34) -/

section SameButInvalidWidths
variable {s s' : State}

theorem SameButInvalidWidths.refl (s : State) : SameButInvalidWidths s s :=
  ⟨rfl, rfl, fun _ => ⟨rfl, fun _ => rfl⟩⟩

theorem SameButInvalidWidths.exists_table (h : SameButInvalidWidths s s') : ∃ table, s' = { s with entry := table } :=
  ⟨_, h.1⟩

theorem SameButInvalidWidths.sameReads (h : SameButInvalidWidths s s') : SameReads s s' := by
  obtain ⟨heq, -, hslots⟩ := h
  exact ⟨congrArg (·.cfg.W) heq, congrArg (·.cfg.accept) heq, congrArg (·.storage) heq, fun p => (hslots p).1,
    fun p => (hslots p).2⟩

theorem SameButInvalidWidths.covers_iff (h : SameButInvalidWidths s s') (p i : Nat) :
    s'.Covers p i ↔ s.Covers p i := by
  obtain ⟨hv, hw⟩ := h.2.2 p
  rw [State.Covers, State.Covers, hv]
  exact and_congr_right fun hvalid => by rw [hw hvalid]

theorem SameButInvalidWidths.ovl_eq (h : SameButInvalidWidths s s') (pos width : Nat) :
    s'.ovl pos width = s.ovl pos width := by
  have hcov := h.covers_iff
  have hv := (h.2.2 pos).1
  obtain ⟨table, rfl⟩ := h.exists_table
  rw [Bool.eq_iff_iff, ovl_iff, ovl_iff]
  simp only [hv, hcov]

theorem SameButInvalidWidths.writeEntry (h : SameButInvalidWidths s s') (p w : Nat) :
    SameButInvalidWidths (s.writeEntry p w) (s'.writeEntry p w) := by
  have hlen := h.2.1
  have hslots := h.2.2
  obtain ⟨table, rfl⟩ := h.exists_table
  refine ⟨rfl, by simpa using hlen, fun q => ?_⟩
  by_cases hp : p < s.entry.length
  · rw [entryAt_writeEntry hp, entryAt_writeEntry (hlen.symm ▸ hp)]
    split
    · exact ⟨rfl, fun _ => rfl⟩
    · exact hslots q
  · have hout : s.entry.length ≤ p := Nat.not_lt.mp hp
    rw [State.entryAt, State.entryAt, writeEntry_entry, writeEntry_entry, List.set_eq_of_length_le hout,
      List.set_eq_of_length_le (hlen.trans_le hout)]
    exact hslots q

theorem SameButInvalidWidths.writeResponse (h : SameButInvalidWidths s s') (st : Status) (d : Word) :
    SameButInvalidWidths (s.writeResponse st d) (s'.writeResponse st d) := by
  obtain ⟨table, rfl⟩ := h.exists_table
  exact ⟨rfl, h.2⟩

/-- A command answers such states alike, and leaves such states: the validator reads the table through `ovl` alone, the
construction commands forget it, and every other write keeps the two tables alike. -/
theorem SameButInvalidWidths.exec_eq_next {i : Instr} {t : State} (h : SameButInvalidWidths s s')
    (he : exec i s = .next t) : ∃ t', exec i s' = .next t' ∧ SameButInvalidWidths t t' := by
  have hovl := h.ovl_eq
  have hwrite := h.writeEntry
  have hread (hi : IsRead i) : ∃ t', exec i s' = .next t' ∧ SameButInvalidWidths t t' := by
    obtain ⟨st, d, e, e'⟩ := h.sameReads.exec_eq hi
    rw [e] at he; cases he
    exact ⟨_, e', h.writeResponse st d⟩
  obtain ⟨hlen, hslots⟩ := h.2
  obtain ⟨table, rfl⟩ := h.exists_table
  cases i with
  | new n =>
    obtain ⟨hgt, e⟩ | ⟨hle, e⟩ := execNew_cases n s
    · rw [e, writeResponse_zero] at he; cases he
      exact ⟨_, (newConstructsEmptySet n { s with entry := table }).2 hgt, rfl, hlen, hslots⟩
    · rw [(newConstructsEmptySet n s).1 hle] at he; cases he
      exact ⟨_, (newConstructsEmptySet n { s with entry := table }).1 hle, .refl _⟩
  | fromRaw raw => cases he; exact ⟨_, execFrom_eq .., .refl _⟩
  | add pos wid =>
    obtain ⟨hoob, e⟩ | ⟨hoob, hv, e⟩ | ⟨hoob, hv, e⟩ := execAdd_cases pos wid s
    · rw [e, writeResponse_zero] at he; cases he
      exact ⟨_, execAdd_of_oob (s := { s with entry := table }) hoob, rfl, hlen, hslots⟩
    · rw [e, writeResponse_zero] at he; cases he
      exact ⟨_, execAdd_of_ovl (s := { s with entry := table }) hoob ((hovl ..).trans hv), rfl, hlen, hslots⟩
    · rw [e] at he; cases he
      exact ⟨_, execAdd_of_checks (s := { s with entry := table }) hoob ((hovl ..).trans hv), rfl,
        (hwrite pos.toNat wid.toNat).2⟩
  | insert pos wid dsize dat =>
    obtain ⟨hoob, e⟩ | ⟨hoob, hlarge, e⟩ | ⟨hoob, hdtl, hval, e⟩ := execInsert_cases pos wid dsize dat s
    · rw [e, writeResponse_zero] at he; cases he
      exact ⟨_, execInsert_of_oob (s := { s with entry := table }) hoob, rfl, hlen, hslots⟩
    · rw [e, writeResponse_zero] at he; cases he
      exact ⟨_, execInsert_of_tooLarge (s := { s with entry := table }) hoob hlarge, rfl, hlen, hslots⟩
    · rw [e] at he; cases he
      exact ⟨_, execInsert_of_checks (s := { s with entry := table }) hoob hdtl hval, rfl,
        (hwrite pos.toNat wid.toNat).2⟩
  | get pos => exact hread (.inl ⟨pos, rfl⟩)
  | getAs pos tsel => exact hread (.inr (.inl ⟨pos, tsel, rfl⟩))
  | getRaw => exact hread (.inr (.inr rfl))

theorem SameButInvalidWidths.perform_eq_next {hdr : Header} {cdata : Word} {t : State} (h : SameButInvalidWidths s s')
    (he : perform hdr cdata s = .next t) : ∃ t', perform hdr cdata s' = .next t' ∧ SameButInvalidWidths t t' := by
  cases hdec : decode hdr cdata with
  | command i =>
    rw [perform_of_decode hdec] at he ⊢
    exact h.exec_eq_next he
  | reject e =>
    rw [perform_of_reject hdec] at he ⊢
    cases he
    obtain ⟨table, rfl⟩ := h.exists_table
    exact ⟨_, rfl, rfl, h.2⟩

/-- An edge without a command: a reset gives the same state, the handshake leaves the table alone. -/
theorem SameButInvalidWidths.otherEdge (h : SameButInvalidWidths s s') :
    SameButInvalidWidths s.otherEdge s'.otherEdge := by
  have hrest := h.2
  obtain ⟨table, rfl⟩ := h.exists_table
  cases hr : s.pins.rst with
  | true =>
    rw [otherEdge_of_rst hr, otherEdge_of_rst (s := { s with entry := table }) hr]
    exact .refl _
  | false =>
    rw [otherEdge_of_no_rst hr, otherEdge_of_no_rst (s := { s with entry := table }) hr]
    exact ⟨rfl, hrest⟩

/-- Settles O29: the ports do not look at the table; the edge accepts the same command, or none. -/
theorem invalidWidthsAreNeverObservable : Obligations.InvalidWidthsAreNeverObservable := by
  intro s s' t h hstep
  have hother := h.otherEdge
  have haccept : SameButInvalidWidths s.acceptEdge s'.acceptEdge := by
    obtain ⟨table, rfl⟩ := h.exists_table
    exact ⟨rfl, h.2⟩
  obtain ⟨table, rfl⟩ := h.exists_table
  refine ⟨rfl, rfl, ?_⟩
  obtain ⟨ha, ⟨hdr, cdata, hf, hp⟩ | ⟨hf, rfl⟩⟩ := step_cases hstep
  · obtain ⟨t', hp', hsame⟩ := haccept.perform_eq_next hp
    exact ⟨t', (step_of_fetch (s := { s with entry := table }) ha hf).trans hp', hsame⟩
  · exact ⟨_, step_of_no_fetch (s := { s with entry := table }) ha hf, hother⟩

end SameButInvalidWidths

/-! ## `LATENCY` (R14, R236) -/

/-- The same state of a block built with another latency. -/
def State.withLatency (s : State) (latency : Nat) : State := { s with cfg := { s.cfg with latency := latency } }

theorem exec_withLatency {i : Instr} {s t : State} (h : exec i s = .next t) (latency : Nat) :
    exec i (s.withLatency latency) = .next (t.withLatency latency) := by
  have hread (hi : IsRead i) : exec i (s.withLatency latency) = .next (t.withLatency latency) := by
    have hsame : SameReads s (s.withLatency latency) := ⟨rfl, rfl, rfl, fun _ => rfl, fun _ _ => rfl⟩
    obtain ⟨st, d, e, e'⟩ := hsame.exec_eq hi
    rw [e] at h; cases h
    exact e'
  cases i with
  | new n =>
    obtain ⟨hgt, e⟩ | ⟨hle, e⟩ := execNew_cases n s
    · rw [e, writeResponse_zero] at h; cases h
      exact (newConstructsEmptySet n (s.withLatency latency)).2 hgt
    · rw [(newConstructsEmptySet n s).1 hle] at h; cases h
      exact (newConstructsEmptySet n (s.withLatency latency)).1 hle
  | fromRaw raw => cases h; exact execFrom_eq ..
  | add pos wid =>
    obtain ⟨hoob, e⟩ | ⟨hoob, hv, e⟩ | ⟨hoob, hv, e⟩ := execAdd_cases pos wid s
    · rw [e, writeResponse_zero] at h; cases h
      exact execAdd_of_oob (s := s.withLatency latency) hoob
    · rw [e, writeResponse_zero] at h; cases h
      exact execAdd_of_ovl (s := s.withLatency latency) hoob hv
    · rw [e] at h; cases h
      exact execAdd_of_checks (s := s.withLatency latency) hoob hv
  | insert pos wid dsize dat =>
    obtain ⟨hoob, e⟩ | ⟨hoob, hlarge, e⟩ | ⟨hoob, hdtl, hval, e⟩ := execInsert_cases pos wid dsize dat s
    · rw [e, writeResponse_zero] at h; cases h
      exact execInsert_of_oob (s := s.withLatency latency) hoob
    · rw [e, writeResponse_zero] at h; cases h
      exact execInsert_of_tooLarge (s := s.withLatency latency) hoob hlarge
    · rw [e] at h; cases h
      exact execInsert_of_checks (s := s.withLatency latency) hoob hdtl hval
  | get pos => exact hread (.inl ⟨pos, rfl⟩)
  | getAs pos tsel => exact hread (.inr (.inl ⟨pos, tsel, rfl⟩))
  | getRaw => exact hread (.inr (.inr rfl))

/-- Settles O30: the checks and writes of a command do not read `LATENCY`; nor does the answer to a reserved opcode. -/
theorem latencyChangesNoEffect : Obligations.LatencyChangesNoEffect := by
  intro hdr cdata s t latency h
  cases hdec : decode hdr cdata with
  | command i =>
    rw [perform_of_decode hdec] at h ⊢
    exact exec_withLatency h latency
  | reject e =>
    rw [perform_of_reject hdec] at h ⊢
    cases h
    rfl

end Sys2Proof.Machine
end

section
/-! INSERT at the two edges of the word (41_field_write.md R145, 93 I3), and the reproduction of a block's word and
fields by FROM and ADD (70_reset_and_hazards.md R232). -/

namespace Sys2Proof.Machine

/-! ## INSERT at the word's edges (R145) -/

/-- An INSERT within bounds, its type small enough and its value unchecked, makes its writes and answers its data. -/
theorem execInsert_of_no_valueCheck {s : State} {pos wid dsize : Byte} {data : Word}
    (hle : pos.toNat + wid.toNat ≤ s.numbits.toNat) (hval : s.cfg.valueCheck = false)
    (hdtl : s.dtl dsize.toNat = false) : exec (.insert pos wid dsize data) s = .next (s.afterInsert pos wid data) :=
  execInsert_of_checks ((oob_eq_false_iff ..).mpr hle) hdtl (by simp [State.val, hval])

/-- At `pos = W` the shift moves every data bit out of the word (R145, 93 I3). -/
theorem storage_afterInsert_at_W {s : State} (hW : s.cfg.W ≤ maxW) (hs : s.StorageFits) {pos : Byte}
    (hpos : pos.toNat = s.cfg.W) (data : Word) : (s.afterInsert pos 0 data).storage = s.storage := by
  refine BitVec.eq_of_getLsbD_eq fun i _ => ?_
  rw [getLsbD_storage_afterInsert hW hs, hpos]
  by_cases hi : i < s.cfg.W
  · simp [hi, Nat.not_le.mpr hi]
  · simp [hi, getLsbD_of_fits hs (Nat.not_lt.mp hi)]

/-- Into a word with no bit set, at position 0, the data goes whole, whatever the width (R145). -/
theorem storage_afterInsert_of_zero {s : State} (hW : s.cfg.W ≤ maxW) (hs : s.StorageFits) (hzero : s.storage = 0)
    (wid : Byte) {data : Word} (hfit : data.toNat < 2 ^ s.cfg.W) : (s.afterInsert 0 wid data).storage = data := by
  refine BitVec.eq_of_getLsbD_eq fun i _ => ?_
  rw [getLsbD_storage_afterInsert hW hs, hzero]
  by_cases hi : i < s.cfg.W
  · simp [hi]
  · simp [hi, getLsbD_of_fits hfit (Nat.not_lt.mp hi)]

/-- Settles O46: both fields are within bounds, and the words are those of the two lemmas above. -/
theorem insertAtTheWordsEdges : Obligations.InsertAtTheWordsEdges := by
  rintro s dsize data ⟨⟨-, hW, -⟩, hs, -⟩ hfull hval hfit hdtl
  have hWbyte : (BitVec.ofNat 8 s.cfg.W).toNat = s.cfg.W := toNat_ofNat_of_le_maxW hW
  refine ⟨⟨_, execInsert_of_no_valueCheck (by simp [hWbyte, hfull]) hval hdtl, rfl,
    storage_afterInsert_at_W hW hs hWbyte data, ?_⟩, fun hzero => ⟨_, execInsert_of_no_valueCheck
    (by simp [hWbyte, hfull]) hval hdtl, rfl, storage_afterInsert_of_zero hW hs hzero _ hfit⟩⟩
  rw [afterInsert_eq_of_fits hfit]

/-! ## Registering a list of fields again (R232) -/

/-- The ADD commands that register a field of width `width p` at each position `p` of a list. -/
def addAt (width : Nat → Byte) (ps : List Nat) : List Instr := ps.map fun p => .add (BitVec.ofNat 8 p) (width p)

theorem performAll_cons_of_exec {i : Instr} {is : List Instr} {s t : State} (h : exec i s = .next t) :
    performAll (i :: is) s = performAll is t := by
  simp only [performAll, h]

/-- On a non-strict block an ADD within bounds at a free position registers its field. -/
theorem execAdd_of_free {s : State} {pos wid : Byte} (hstrict : s.cfg.strictOverlap = false)
    (hle : pos.toNat + wid.toNat ≤ s.numbits.toNat) (hfree : (s.entryAt pos.toNat).v = false) :
    exec (.add pos wid) s = .next ((s.writeEntry pos.toNat wid.toNat).writeResponse .ok 0) :=
  execAdd_of_checks ((oob_eq_false_iff ..).mpr hle) ((ovl_of_not_strict hstrict ..).trans hfree)

/-- Fields within bounds at distinct free positions are all registered, whether they overlap or not (R36). -/
theorem performAll_addAt {width : Nat → Byte} {ps : List Nat} {u : State} (hu : u.Inv)
    (hstrict : u.cfg.strictOverlap = false) (hps : ps.Nodup)
    (hfields : ∀ p ∈ ps, p + (width p).toNat ≤ u.numbits.toNat ∧ (u.entryAt p).v = false) :
    ∃ t, performAll (addAt width ps) u = .next t ∧ t.cfg = u.cfg ∧ t.storage = u.storage ∧
      ∀ q, t.entryAt q = if q ∈ ps then ⟨true, width q⟩ else u.entryAt q := by
  induction ps generalizing u with
  | nil => exact ⟨u, rfl, rfl, rfl, fun q => by simp⟩
  | cons p ps ih =>
    obtain ⟨hp, hps⟩ := List.nodup_cons.mp hps
    obtain ⟨⟨hle, hfree⟩, hfields⟩ := List.forall_mem_cons.mp hfields
    have ⟨hadm, _, hcap, htab, _⟩ := hu
    have hpos : (BitVec.ofNat 8 p).toNat = p := toNat_ofNat_of_le_maxW (by have := hadm.2.1; omega)
    have hadd := execAdd_of_free (pos := BitVec.ofNat 8 p) (wid := width p) hstrict (hpos.symm ▸ hle)
      (hpos.symm ▸ hfree)
    rw [hpos] at hadd
    have hslot := entryAt_writeEntry_byte (s := u) (p := p) (by omega) (width p)
    obtain ⟨t, hrun, hcfg, hst, hentry⟩ := ih (exec_inv hu hadd) hstrict hps fun q hq => by
      obtain ⟨hqle, hqfree⟩ := hfields q hq
      have hqp : q ≠ p := fun h => hp (h ▸ hq)
      rw [entryAt_writeResponse, hslot, if_neg hqp]
      exact ⟨hqle, hqfree⟩
    refine ⟨t, (performAll_cons_of_exec hadd).trans hrun, hcfg, hst, fun q => ?_⟩
    rw [hentry, entryAt_writeResponse, hslot]
    by_cases hq : q ∈ ps
    · simp [hq]
    · by_cases hqp : q = p
      · simp [hqp, hp]
      · simp [hq, hqp]

/-! ## FROM of the word and an ADD per field (R174, R232) -/

theorem mem_addCommands_positions {s : State} (htab : s.TableShaped) (q : Nat) :
    q ∈ (List.range (s.cfg.W + 1)).filter (fun p => (s.entryAt p).v) ↔ (s.entryAt q).v = true := by
  rw [List.mem_filter, List.mem_range, and_iff_right_iff_imp]
  exact fun hv => Nat.lt_succ_of_le (le_W_of_valid htab hv)

/-- An invalid slot holds width 0, and a position past the table reads as such a slot (R33, R34). -/
theorem entryAt_eq_empty_of_invalid {s : State} (htab : s.TableShaped) (hempty : s.EmptySlotsZero) {q : Nat}
    (hv : (s.entryAt q).v = false) : s.entryAt q = Entry.empty := by
  by_cases hq : q < s.cfg.W + 1
  · have hw := hempty q hq hv
    cases he : s.entryAt q with
    | mk v w => rw [he] at hv hw; cases hv; cases hw; rfl
  · exact entryAt_of_length_le (htab.trans_le (Nat.not_lt.mp hq))

/-- On a non-strict block FROM of the word and an ADD per field give the word and the table back. -/
theorem performAll_reimport {s : State} (hs : s.Inv) (hstrict : s.cfg.strictOverlap = false) :
    ∃ t, performAll (.fromRaw s.storage :: s.addCommands) s = .next t ∧ t.cfg = s.cfg ∧ t.storage = s.storage ∧
      ∀ p, t.entryAt p = s.entryAt p := by
  have ⟨hadm, hst, hcap, htab, hin, hempty, _⟩ := hs
  have hfrom := fromLoadsRawWord s.storage s hadm (decide_eq_true hst)
  have hmem := mem_addCommands_positions htab
  obtain ⟨t, hrun, hcfg, hword, hentry⟩ := performAll_addAt (width := fun p => (s.entryAt p).w)
    (exec_inv hs hfrom) hstrict (List.nodup_range.filter fun p => (s.entryAt p).v) fun p hp => by
      have hv := (hmem p).mp hp
      refine ⟨?_, congrArg Entry.v (getD_replicate_empty _ p)⟩
      calc p + (s.entryAt p).w.toNat ≤ s.numbits.toNat := hin p (Nat.lt_succ_of_le (le_W_of_valid htab hv)) hv
        _ ≤ s.cfg.W := hcap
        _ = (BitVec.ofNat 8 s.cfg.W).toNat := (toNat_ofNat_of_le_maxW hadm.2.1).symm
  refine ⟨t, (performAll_cons_of_exec hfrom).trans hrun, hcfg, hword, fun p => ?_⟩
  rw [hentry]
  by_cases hv : (s.entryAt p).v = true
  · rw [if_pos ((hmem p).mpr hv), ← hv]
  · rw [if_neg fun hp => hv ((hmem p).mp hp), entryAt_eq_empty_of_invalid htab hempty (Bool.eq_false_iff.mpr hv)]
    exact getD_replicate_empty _ p

/-- Settles O52: after `performAll_reimport` the reads see the same word and the same table. -/
theorem reimportReproducesEveryRead : Obligations.ReimportReproducesEveryRead := by
  intro s hs hstrict
  obtain ⟨t, hrun, hcfg, hword, hentry⟩ := performAll_reimport hs hstrict
  refine ⟨t, hrun, hword, hentry, fun pos tsel i hi => ?_⟩
  have hsame : SameReads s t :=
    ⟨congrArg (·.W) hcfg, congrArg (·.accept) hcfg, hword, fun p => congrArg Entry.v (hentry p),
      fun p _ => congrArg Entry.w (hentry p)⟩
  have hread : IsRead i := by
    simp only [List.mem_cons, List.not_mem_nil, or_false] at hi
    obtain rfl | rfl | rfl := hi
    · exact .inl ⟨pos, rfl⟩
    · exact .inr (.inl ⟨pos, tsel, rfl⟩)
    · exact .inr (.inr rfl)
  obtain ⟨st, d, e, e'⟩ := hsame.exec_eq hread
  refine ⟨_, _, e, e', rfl, ?_⟩
  rw [writeResponse_rspData, writeResponse_rspData, hcfg]

end Sys2Proof.Machine
end
